-- ==== Sys2Proof/Word.lean ====
section
/-! DEFINITION. The word types of the GBN-RDT core (spec 00_scope.md section 5, 20_memory.md R27 and R31): the byte,
the 16-bit word, the packet as a byte array, and the environment's time. -/

namespace Sys2Proof

/-- A byte: 8 bits, unsigned (00_scope.md section 5.1). -/
abbrev Byte := BitVec 8

/-- A 16-bit word: the checksum field and a word of the checksum walk (R30, R31). -/
abbrev Word16 := BitVec 16

/-- A packet: its bytes by offset, offset 0 first (R27). That there are exactly `P` of them is checked where a packet
enters the core, because `P` is a parameter of the configuration. -/
abbrev Packet := List Byte

/-- The environment's time type (R79, D12: "any totally ordered additive type will do"). DESIGN CHOICE (log 4): a count
of ticks of 1/1000 time unit. -/
abbrev Time := Nat

end Sys2Proof
end

