-- ==== Sys2Proof/Config.lean ====
section
/-! DEFINITION. The protocol constants, unit CONST (spec 00_scope.md R5 to R10, 10_state.md R21): what one configuration
is, the names derived from it, which configurations are legal, and the default one. -/

namespace Sys2Proof

/-- `Cfg = (P, S, W, TIMEOUT)` of 00_scope.md section 4, with the OPEN parameter `BUF_DEPTH` of decision D9. -/
structure Cfg where
  /-- Packet size in bytes (R5). -/
  P : Nat
  /-- Configured sequence modulus (R6). -/
  S : Nat
  /-- Window capacity in packets (R7). -/
  W : Nat
  /-- `TIMEOUT`, the duration the timer is armed with (R8). -/
  timeout : Time
  /-- `BUF_DEPTH`, the capacity of `bufferQueue`; `none` is unbounded, the default (D9). -/
  bufDepth : Option Nat
  deriving DecidableEq, Repr

/-- The header size: bytes 0 to 3 of every packet (R5, R41; not configurable, D2). -/
abbrev HDR : Nat := 4

/-- `MAXPAY = P - 4`, the largest payload of one packet (R5). -/
def Cfg.maxPay (c : Cfg) : Nat := c.P - HDR

/-- `M = S - 1`, the modulus of all sequence arithmetic (R6). -/
def Cfg.M (c : Cfg) : Nat := c.S - 1

/-- The legal configurations of R10 (decision D1). -/
abbrev Cfg.Legal (c : Cfg) : Prop :=
  c.P % 2 = 0 ∧ 6 ≤ c.P ∧ c.P ≤ 258 ∧ 3 ≤ c.S ∧ c.S ≤ 257 ∧ 1 ≤ c.W ∧ c.W ≤ c.S - 2 ∧ 0 < c.timeout

/-- The default configuration: `P = 64`, `S = 128`, `W = 15`, `TIMEOUT = 0.3` time units (R5 to R8), `BUF_DEPTH`
unbounded (D9). -/
def Cfg.default : Cfg := { P := 64, S := 128, W := 15, timeout := 300, bufDepth := none }

end Sys2Proof
end

