-- ==== Sys2Proof/Syntax.lean ====
section
/-! DEFINITION. The syntax of the core's operations (spec 30_encoding.md R46, R47, opcode_table.json): one constructor
per row of the table, with the operand format of the row. -/

namespace Sys2Proof

/-- The two instances of the core (R2, R89), written `TX` and `RX` in the notation of R48. -/
inductive Side where
  /-- the sender instance: FRAG, TXW, TMR and the CODEC functions they call -/
  | tx
  /-- the receiver instance: RXS and the CODEC functions it calls -/
  | rx
  deriving DecidableEq, Repr

/-- The two ways an event reaches an instance: an operation selected by its code (R46), or a bare packet in the wire
format handed over by the channel (R41, R43). -/
inductive Port where
  /-- the event interface: an operation code and the operand -/
  | cmd
  /-- the channel: the `P` bytes of one packet and nothing else -/
  | wire
  deriving DecidableEq, Repr

/-- The rows of spec/opcode_table.json. CKSUM and VERIFY (called by ACKIN and by PKTIN, R2, R102), XMIT (R47) and PACKET (R43)
exist at either instance, so those constructors name the instance, and so does ENCODE: that the receiver has it too, which
never calls it (R2, R70 corner case (e)), is DESIGN CHOICE, log 22. Every other row's unit belongs to one instance only (R2). -/
inductive Instr where
  /-- 0x10 CKSUM, format K (R50) -/
  | cksum (side : Side) (pkt : Packet)
  /-- 0x11 ENCODE, format E (R53); at the receiver: DESIGN CHOICE, log 22 -/
  | encode (side : Side) (len seq : Byte) (pay : List Byte)
  /-- 0x12 VERIFY, format K (R54) -/
  | verify (side : Side) (pkt : Packet)
  /-- 0x20 FRAGMENT, format B (R57) -/
  | fragment (msg : List Byte)
  /-- 0x30 SUBMIT, format B (R60) -/
  | submit (msg : List Byte)
  /-- 0x31 ADMIT, format N (R61) -/
  | admitFromBuffer
  /-- 0x32 ACKIN, format K (R62) -/
  | ackin (pkt : Packet)
  /-- 0x33 TIMEOUT, format N (R66) -/
  | timeout
  /-- 0x40 PKTIN, format K (R70) -/
  | pktin (pkt : Packet)
  /-- 0x50 ARM, format D (R74) -/
  | arm (d : Time)
  /-- 0x51 CANCEL, format N (R75) -/
  | cancel
  /-- 0x52 QUERY, format N (R76) -/
  | query
  /-- 0x53 EXPIRE, format N (R77) -/
  | expire
  /-- 0x80 XMIT, format K: the output event to the channel (R47) -/
  | xmit (side : Side) (pkt : Packet)
  /-- 0x81 DELIVER, format B: the output event to the layer above the receiver (R47) -/
  | deliver (bytes : List Byte)
  /-- PACKET: one packet in the wire format of R41, handed to an instance by the channel (log 6) -/
  | packet (side : Side) (pkt : Packet)
  deriving DecidableEq, Repr

/-- The instance an operation belongs to (R2, the unit column of R46 and R47; ENCODE at the receiver: log 22). -/
def Instr.side : Instr → Side
  | .cksum sd _ => sd
  | .encode sd _ _ _ => sd
  | .verify sd _ => sd
  | .fragment _ => .tx
  | .submit _ => .tx
  | .admitFromBuffer => .tx
  | .ackin _ => .tx
  | .timeout => .tx
  | .pktin _ => .rx
  | .arm _ => .tx
  | .cancel => .tx
  | .query => .tx
  | .expire => .tx
  | .xmit sd _ => sd
  | .deliver _ => .rx
  | .packet sd _ => sd

/-- How an event is presented: every operation has a code but PACKET, which is the wire format itself (R41, R46). -/
def Instr.port : Instr → Port
  | .cksum _ _ => .cmd
  | .encode _ _ _ _ => .cmd
  | .verify _ _ => .cmd
  | .fragment _ => .cmd
  | .submit _ => .cmd
  | .admitFromBuffer => .cmd
  | .ackin _ => .cmd
  | .timeout => .cmd
  | .pktin _ => .cmd
  | .arm _ => .cmd
  | .cancel => .cmd
  | .query => .cmd
  | .expire => .cmd
  | .xmit _ _ => .cmd
  | .deliver _ => .cmd
  | .packet _ _ => .wire

end Sys2Proof
end

