-- ==== Sys2Proof/WellFormed.lean ====
section
/-! DEFINITION. Which operands an operation may have (spec 30_encoding.md R46, table of operand formats; 20_memory.md
R27; 93_implementation_defined.md U8 and U9). -/

namespace Sys2Proof

/-- Format K: a packet is exactly `P` bytes (R27, U9). -/
def wfPacket (c : Cfg) (pkt : Packet) : Bool := decide (pkt.length = c.P)

/-- Format E: `L` in `0..MAXPAY` and exactly `L` payload bytes (R53, U8). A sequence byte in `M..255` is allowed: U8 says
so of ENCODE as a test tool. -/
def wfEncode (c : Cfg) (len : Byte) (pay : List Byte) : Bool :=
  decide (len.toNat ≤ c.maxPay) && decide (pay.length = len.toNat)

/-- The bytes of a DELIVER: one packet's payload, `0..MAXPAY` bytes (R31, R72). -/
def wfDeliver (c : Cfg) (bytes : List Byte) : Bool := decide (bytes.length ≤ c.maxPay)

/-- The operands are of the type and size the operation asks for, under the configuration of each instance. -/
def Instr.wf (cfg : Side → Cfg) : Instr → Bool
  | .cksum sd pkt => wfPacket (cfg sd) pkt
  | .encode sd len _ pay => wfEncode (cfg sd) len pay
  | .verify sd pkt => wfPacket (cfg sd) pkt
  | .fragment _ => true
  | .submit _ => true
  | .admitFromBuffer => true
  | .ackin pkt => wfPacket (cfg .tx) pkt
  | .timeout => true
  | .pktin pkt => wfPacket (cfg .rx) pkt
  | .arm _ => true
  | .cancel => true
  | .query => true
  | .expire => true
  | .xmit sd pkt => wfPacket (cfg sd) pkt
  | .deliver bytes => wfDeliver (cfg .rx) bytes
  | .packet sd pkt => wfPacket (cfg sd) pkt

end Sys2Proof
end

