-- ==== Sys2Proof/Decode.lean ====
section
/-! DEFINITION. From the bytes of an event to an operation and back (spec 30_encoding.md R46, R47, opcode_table.json).
An event on the event interface is the operation code, one byte, and then the operand in the format of the code's row;
a packet from the channel is its `P` bytes (R41). The spec gives the codes and the operand formats and no serialisation
of a length or a duration: that is log 5. -/

namespace Sys2Proof

/-- Why an event's bytes select no operation; nothing of the core changes (R46: "A code not in the table selects no
operation and the core refuses it (no state change, no output)"). Each is safe: the model stops and claims nothing. -/
inductive Reject where
  /-- the event holds no byte, so no operation code -/
  | empty
  /-- the code is not in the table of R46 and R47 -/
  | unknownCode (opc : Byte)
  /-- the code's unit is not part of the instance the event was presented to (R2) -/
  | wrongSide (opc : Byte)
  /-- the operand ends before its format does; for format K, fewer than `P` bytes (U9) -/
  | truncated
  /-- a length or a duration is not in its shortest form (log 5) -/
  | notShortest
  /-- bytes follow the operand; for format K, more than `P` bytes (U9) -/
  | trailing
  deriving DecidableEq, Repr

/-- A length `n` or a duration, unbounded (R46, format B and D): seven bits a byte, the least significant first, bit 7 set
on every byte but the last, no superfluous last byte (log 5). -/
def readNat : List Byte → Except Reject (Nat × List Byte)
  | [] => .error .truncated
  | b :: rest =>
    if b.toNat < 128 then .ok (b.toNat, rest)
    else
      match readNat rest with
      | .error r => .error r
      | .ok (n, rest') => if n = 0 then .error .notShortest else .ok (b.toNat - 128 + 128 * n, rest')

/-- The first `n` bytes, and what follows them. -/
def readBytes (n : Nat) (bytes : List Byte) : Except Reject (List Byte × List Byte) :=
  if n ≤ bytes.length then .ok (bytes.take n, bytes.drop n) else .error .truncated

/-- Format N: no operand. -/
def readNone (i : Instr) (bytes : List Byte) : Except Reject (Instr × List Byte) := .ok (i, bytes)

/-- Format K: one packet, exactly `P` bytes. -/
def readPacket (P : Nat) (mk : Packet → Instr) (bytes : List Byte) : Except Reject (Instr × List Byte) :=
  match readBytes P bytes with
  | .error r => .error r
  | .ok (pkt, rest) => .ok (mk pkt, rest)

/-- Format B: a length `n >= 0` and `n` bytes. -/
def readString (mk : List Byte → Instr) (bytes : List Byte) : Except Reject (Instr × List Byte) :=
  match readNat bytes with
  | .error r => .error r
  | .ok (n, rest) =>
    match readBytes n rest with
    | .error r => .error r
    | .ok (msg, rest') => .ok (mk msg, rest')

/-- Format E: `L`, `seq`, and `L` payload bytes (at the receiver: log 22). -/
def readEncode (sd : Side) (bytes : List Byte) : Except Reject (Instr × List Byte) :=
  match bytes with
  | len :: seq :: rest =>
    match readBytes len.toNat rest with
    | .error r => .error r
    | .ok (pay, rest') => .ok (.encode sd len seq pay, rest')
  | _ => .error .truncated

/-- Format D: a duration. -/
def readDuration (bytes : List Byte) : Except Reject (Instr × List Byte) :=
  match readNat bytes with
  | .error r => .error r
  | .ok (d, rest) => .ok (.arm d, rest)

/-- An operation whose unit belongs to one instance is selected only there (R2, R46). -/
def onlyAt (need sd : Side) (opc : Byte) (k : Except Reject (Instr × List Byte)) : Except Reject (Instr × List Byte) :=
  if sd = need then k else .error (.wrongSide opc)

/-- The operation code selects the operation and the operand's format (the table of R46, and R47 for the output events);
a code not in the table selects none. That 0x11, ENCODE, is selected at the receiver too is DESIGN CHOICE, log 22. -/
def decodeCode (sd : Side) (P : Nat) (opc : Byte) (rest : List Byte) : Except Reject (Instr × List Byte) :=
  match opc.toNat with
  | 0x10 => readPacket P (.cksum sd) rest
  | 0x11 => readEncode sd rest
  | 0x12 => readPacket P (.verify sd) rest
  | 0x20 => onlyAt .tx sd opc (readString .fragment rest)
  | 0x30 => onlyAt .tx sd opc (readString .submit rest)
  | 0x31 => onlyAt .tx sd opc (readNone .admitFromBuffer rest)
  | 0x32 => onlyAt .tx sd opc (readPacket P .ackin rest)
  | 0x33 => onlyAt .tx sd opc (readNone .timeout rest)
  | 0x40 => onlyAt .rx sd opc (readPacket P .pktin rest)
  | 0x50 => onlyAt .tx sd opc (readDuration rest)
  | 0x51 => onlyAt .tx sd opc (readNone .cancel rest)
  | 0x52 => onlyAt .tx sd opc (readNone .query rest)
  | 0x53 => onlyAt .tx sd opc (readNone .expire rest)
  | 0x80 => readPacket P (.xmit sd) rest
  | 0x81 => onlyAt .rx sd opc (readString .deliver rest)
  | _ => .error (.unknownCode opc)

/-- The operation at the front of the bytes presented to a port of an instance whose packet size is `P`, and the bytes
after it. -/
def decode (sd : Side) (port : Port) (P : Nat) (bytes : List Byte) : Except Reject (Instr × List Byte) :=
  match port with
  | .wire => readPacket P (.packet sd) bytes
  | .cmd =>
    match bytes with
    | [] => .error .empty
    | opc :: rest => decodeCode sd P opc rest

/-- One event holds exactly one operation: nothing may follow it (R27, U9: an input that is not exactly `P` bytes is not
a packet). -/
def decodeEvent (sd : Side) (port : Port) (P : Nat) (bytes : List Byte) : Except Reject Instr :=
  match decode sd port P bytes with
  | .error r => .error r
  | .ok (i, []) => .ok i
  | .ok (_, _ :: _) => .error .trailing

/-! ## The encoder -/

/-- `readNat`'s inverse. `fuel` bounds the number of bytes after the first; the number itself is always enough. -/
def writeNatFuel : Nat → Nat → List Byte
  | 0, n => [BitVec.ofNat 8 n]
  | fuel + 1, n =>
    if n < 128 then [BitVec.ofNat 8 n]
    else BitVec.ofNat 8 (n % 128 + 128) :: writeNatFuel fuel (n / 128)

/-- A length or a duration in its shortest form (log 5). -/
def writeNat (n : Nat) : List Byte := writeNatFuel n n

/-- Format B: the length and the bytes. -/
def writeString (msg : List Byte) : List Byte := writeNat msg.length ++ msg

/-- The bytes of an event: the code of R46 or R47 and the operand; for PACKET, the packet itself. -/
def encode : Instr → List Byte
  | .cksum _ pkt => 0x10#8 :: pkt
  | .encode _ len seq pay => 0x11#8 :: len :: seq :: pay
  | .verify _ pkt => 0x12#8 :: pkt
  | .fragment msg => 0x20#8 :: writeString msg
  | .submit msg => 0x30#8 :: writeString msg
  | .admitFromBuffer => [0x31#8]
  | .ackin pkt => 0x32#8 :: pkt
  | .timeout => [0x33#8]
  | .pktin pkt => 0x40#8 :: pkt
  | .arm d => 0x50#8 :: writeNat d
  | .cancel => [0x51#8]
  | .query => [0x52#8]
  | .expire => [0x53#8]
  | .xmit _ pkt => 0x80#8 :: pkt
  | .deliver bytes => 0x81#8 :: writeString bytes
  | .packet _ pkt => pkt

/-! ## A row of the opcode table, laid out as an event -/

/-- The first `n` bytes of a word numbered as the table numbers it: bits 7..0 are the first byte. -/
def tableBytes : Nat → Nat → List Byte
  | 0, _ => []
  | n + 1, w => BitVec.ofNat 8 w :: tableBytes n (w / 256)

/-- The instance a table row is presented to: the one that has the row's unit; the sender for a row both have, but for
PACKET, a data packet's wire format, the receiver. -/
def tableSide (nbits w : Nat) : Side :=
  if nbits = 8 then (if w % 256 = 0x40 ∨ w % 256 = 0x81 then .rx else .tx) else .rx

/-- The port: every row with a code is 8 bits long; only PACKET's row is longer (its header alone is 32 bits). -/
def tablePort (nbits : Nat) : Port := if nbits = 8 then .cmd else .wire

/-- The row's bits, and operand bytes of zeros up to the longest operand a row of zeros can have (a packet). -/
def tableLayout (P nbits w : Nat) : List Byte := tableBytes (nbits / 8) w ++ List.replicate (P + 2) 0#8

/-- The part of the layout that is the row's own event: what the decoder consumes of it. Where the decoder refuses, the
row's bytes alone. -/
def tableEvent (P nbits w : Nat) : List Byte :=
  let bytes := tableLayout P nbits w
  match decode (tableSide nbits w) (tablePort nbits) P bytes with
  | .error _ => tableBytes (nbits / 8) w
  | .ok (_, rest) => bytes.take (bytes.length - rest.length)

/-- The instruction the decoder reads from a row's bits under the default configuration, operand bytes zero. -/
def decodeTableWord (nbits w : Nat) : Option Instr :=
  match decode (tableSide nbits w) (tablePort nbits) Cfg.default.P (tableLayout Cfg.default.P nbits w) with
  | .error _ => none
  | .ok (i, _) => some i

end Sys2Proof
end

