-- ==== Sys2Proof/Machine/State.lean ====
section
/-! DEFINITION. The state of the core (spec 10_state.md R11 to R26), its value after reset (70_reset_and_hazards.md R91),
the output events (30_encoding.md R47), the environment's events (60_exceptions.md R82), and the reasons a step can stop. -/

namespace Sys2Proof.Machine

/-- An output event (R47). -/
inductive Output where
  /-- `XMIT(pkt)`: a packet handed to the channel, by value (R33) -/
  | xmit (pkt : Packet)
  /-- `ARM(d)`: the sender's timer is armed for `d` -/
  | arm (d : Time)
  /-- `DELIVER(bytes)`: bytes handed to the layer above the receiver -/
  | deliver (bytes : List Byte)
  deriving DecidableEq, Repr

/-- What an operation answers to its caller (R50, R53, R54, R76). -/
inductive Result where
  /-- no operation has answered a value yet -/
  | nothing
  /-- the checksum CKSUM computed -/
  | cksum (c : Word16)
  /-- the packet ENCODE built -/
  | packet (pkt : Packet)
  /-- the bit VERIFY or QUERY answered -/
  | bit (b : Bool)
  deriving DecidableEq, Repr

/-- The sender instance (R11, R22, R24). `out` and `result` are the model's own record of what it emitted and answered
(log 8). -/
structure Sender where
  /-- the configuration constants, never written (R9, R21) -/
  cfg : Cfg
  /-- the next sequence number to assign (R12) -/
  nextSeq : Byte
  /-- the highest cumulatively acknowledged sequence number (R13) -/
  lastAck : Byte
  /-- packets created but not yet admitted, oldest first (R15) -/
  bufferQueue : List Packet
  /-- packets sent but not yet acknowledged, oldest first (R16) -/
  windowQueue : List Packet
  /-- an expiry is pending (R22, R73) -/
  tmrArmed : Bool
  /-- the time of the pending expiry, meaningful only while `tmrArmed` (R22, R73) -/
  tmrDeadline : Time
  /-- the output trace, oldest first -/
  out : List Output
  /-- the last value answered -/
  result : Result
  deriving DecidableEq, Repr

/-- The receiver instance (R11, R14, R24). `out` and `result` as for the sender (log 8). -/
structure Receiver where
  /-- the configuration constants, never written (R9, R21) -/
  cfg : Cfg
  /-- the next sequence number the receiver will accept (R14) -/
  expectedSeq : Byte
  /-- the output trace, oldest first -/
  out : List Output
  /-- the last value answered -/
  result : Result
  deriving DecidableEq, Repr

/-- The two treatments of time R79 offers (log 4). -/
inductive Timing where
  /-- EXPIRE is enabled whenever the timer is armed -/
  | untimed
  /-- EXPIRE is enabled when the timer is armed and its deadline has come -/
  | timed
  deriving DecidableEq, Repr

/-- What the environment can do to an instance (R82, R90). -/
inductive Input where
  /-- present bytes to one of its ports -/
  | present (side : Side) (port : Port) (bytes : List Byte)
  /-- RESET of the instance -/
  | reset (side : Side)
  deriving DecidableEq, Repr

/-- One event and the time passed since the event before it (R79: `now` is "supplied by the environment with each
event" and never runs backwards). -/
structure Event where
  delay : Time
  input : Input
  deriving DecidableEq, Repr

/-- The whole machine: the two instances (R24), and of the environment its time, the treatment of time, and the events it
has yet to dispatch (log 4, log 9). -/
structure State where
  tx : Sender
  rx : Receiver
  now : Time
  timing : Timing
  events : List Event
  deriving DecidableEq, Repr

/-- No operation of the core faults: "A model has no fault outcome and no stuck state for any operation of the core"
(R80). So no one raises a fault, and there is none to name (log 13). -/
inductive Fault where
  deriving DecidableEq, Repr

/-- Why the model gives an event no meaning. R80: "the only things it refuses are inputs of the wrong type or size and
illegal configurations"; the other reasons are the spec's own, each cited. All are safe: the model stops. -/
inductive Refusal where
  /-- raised by `exec`'s arm of an instruction that has no meaning in the model (none at present); safe -/
  | notModelled (mnemonic : String)
  /-- raised by `step` where the presented bytes select no operation (R46, U9); safe -/
  | undecodable (r : Reject)
  /-- raised by every operation and by RESET of an instance whose configuration is outside R10 (U10); safe -/
  | illegalConfiguration
  /-- raised by an operation of format K whose operand is not exactly `P` bytes (R27, U8, U9); safe -/
  | notAPacket
  /-- raised by ENCODE where `L > MAXPAY` or the payload is not `L` bytes (U8); safe -/
  | notEncodable
  /-- raised by DELIVER of more than `MAXPAY` bytes, which no packet's payload is (R31, R72); safe -/
  | notAPayload
  /-- raised by SUBMIT and FRAGMENT where a finite `BUF_DEPTH` would be exceeded (U6); safe -/
  | bufferFull
  /-- raised by EXPIRE while it is not enabled: it "has no step" (R77); safe -/
  | expireNotEnabled
  deriving DecidableEq, Repr

/-- What an operation ends in. -/
abbrev Outcome := Host.Outcome State Fault Refusal

/-- R91: the sender instance after reset. `tmrDeadline` is unspecified there: `0` is DESIGN CHOICE, log 10. -/
def Sender.initial (c : Cfg) : Sender :=
  { cfg := c, nextSeq := 0#8, lastAck := BitVec.ofNat 8 (c.M - 1), bufferQueue := [], windowQueue := [],
    tmrArmed := false, tmrDeadline := 0, out := [], result := .nothing }

/-- R91: the receiver instance after reset. -/
def Receiver.initial (c : Cfg) : Receiver :=
  { cfg := c, expectedSeq := 0#8, out := [], result := .nothing }

/-- The machine right after reset: both instances at R91's values under the default configuration, no event yet; the time
and its treatment are DESIGN CHOICE, log 4 and log 10. -/
def State.reset : State :=
  { tx := Sender.initial Cfg.default, rx := Receiver.initial Cfg.default, now := 0, timing := .untimed, events := [] }

end Sys2Proof.Machine
end

