-- ==== Sys2Proof/Machine/Operands.lean ====
section
/-! DEFINITION. How the operations read and write packet bytes, and the sequence arithmetic (spec 00_scope.md section 5,
20_memory.md R29, 30_encoding.md R42, 42_sender_window.md R69, 45_structure.md R103). -/

namespace Sys2Proof.Machine

/-- `pkt[i]`. -/
def byteAt (pkt : Packet) (i : Nat) : Byte := pkt.getD i 0#8

/-- `MemRead(pkt, off, n)`: the `n` bytes from `off` on, big-endian (00_scope.md section 5.2, R29). -/
def memRead (pkt : Packet) (off : Nat) : Nat → Nat
  | 0 => 0
  | n + 1 => (byteAt pkt off).toNat * 256 ^ n + memRead pkt (off + 1) n

/-- `MemWrite(pkt, off, n, v)`: the `n` bytes of `v`, the most significant at `off` (00_scope.md section 5.2, R29). -/
def memWrite (pkt : Packet) (off : Nat) : Nat → Nat → Packet
  | 0, _ => pkt
  | n + 1, v => memWrite (pkt.set off (BitVec.ofNat 8 (v / 256 ^ n))) (off + 1) n v

/-- `pkt[off + k] <- bytes[k]` for every `k`. -/
def putBytes (pkt : Packet) (off : Nat) : List Byte → Packet
  | [] => pkt
  | b :: bs => putBytes (pkt.set off b) (off + 1) bs

/-- `len(pkt)`, an unsigned byte (R42). -/
def lenOf (pkt : Packet) : Nat := (byteAt pkt 0).toNat

/-- `seq(pkt)`, an unsigned byte (R42). -/
def seqOf (pkt : Packet) : Nat := (byteAt pkt 1).toNat

/-- `cks(pkt)`, big-endian (R42). -/
def cksOf (pkt : Packet) : Nat := memRead pkt 2 2

/-- `pay(pkt) = pkt[4 .. 4 + len(pkt))`, taken only when `len(pkt) <= MAXPAY` (R42). -/
def payOf (pkt : Packet) : List Byte := (pkt.drop HDR).take (lenOf pkt)

/-- `a +M b = (a + b) mod M` (00_scope.md section 5.1). -/
def addM (M a b : Nat) : Nat := (a + b) % M

/-- `a -M b = (a - b) mod M` with the mathematical `mod`, never negative (00_scope.md section 5.1). -/
def subM (M a b : Nat) : Nat := (((a : Int) - (b : Int)) % (M : Int)).toNat

/-- `x <- (x + 1) mod M` on an 8-bit sequence register (R12, R14, R69). -/
def nextInSpace (c : Cfg) (x : Byte) : Byte := BitVec.ofNat 8 (addM c.M x.toNat 1)

/-- `ceil(n / MAXPAY)`, the number of packets of a message of `n` bytes (R58). -/
def chunkCount (c : Cfg) (n : Nat) : Nat := (n + c.maxPay - 1) / c.maxPay

/-- The configuration of an instance. -/
def State.cfgOf (s : State) : Side → Cfg
  | .tx => s.tx.cfg
  | .rx => s.rx.cfg

end Sys2Proof.Machine
end

