-- ==== Sys2Proof/Machine/Flags.lean ====
section
/-! DEFINITION. The checksum, and every condition that selects a path (spec 40_codec.md R50 to R54, 42_sender_window.md
R62 to R65, 43_receiver.md R70, 44_timer.md R77; the complete list is in 45_structure.md R102). The hardware stores no
flag (10_state.md R20): each is computed and consumed at once. -/

namespace Sys2Proof.Machine

/-! ## The checksum -/

/-- The single-step carry fold (R51): it adds 1, whatever the bits above bit 15 are, and is not repeated. -/
def fold (sum : Nat) : Nat := if sum ≥ 0x10000 then sum % 0x10000 + 1 else sum

/-- One round of the walk: add a word, then fold (R50 step 3). -/
def addWord (sum word : Nat) : Nat := fold (sum + word)

/-- The words of the walk: offsets `4, 6, ..., P-2`, ascending (R50 step 3, R30). -/
def walkWords (pkt : Packet) : List Nat :=
  (List.range ((pkt.length - HDR) / 2)).map fun k => memRead pkt (HDR + 2 * k) 2

/-- The running sum after the walk: seed, fold, and a fold after every word (R50 steps 1 to 3). -/
def cksumSum (pkt : Packet) : Nat := (walkWords pkt).foldl addWord (fold (memRead pkt 0 2))

/-- `CKSUM(pkt)`: the complement of the sum, 16 bits (R50 step 4). -/
def cksum (pkt : Packet) : Word16 := ~~~ BitVec.ofNat 16 (cksumSum pkt)

/-- `VERIFY(pkt)`: the 16-bit equality of CKSUM and the checksum field (R54; R93 row "checksum soundness"). -/
def verify (pkt : Packet) : Bool := (cksum pkt).toNat == cksOf pkt

/-! ## The conditions of ACKIN -/

/-- The guard of R63, on plain integers: `ack > lastAck and lastAck + M - ack <= W`. -/
def ackGuard (M W ack lastAck : Nat) : Bool := decide (ack > lastAck) && decide (lastAck + M - ack ≤ W)

/-- The membership test of R65: `1 <= (seq(q) - old) mod M <= gap`. -/
def acknowledged (M old gap : Nat) (q : Packet) : Bool :=
  decide (1 ≤ subM M (seqOf q) old) && decide (subM M (seqOf q) old ≤ gap)

/-- What ACKIN finds, in the order of its tests (R62, R64, R81, R84). -/
inductive AckClass where
  /-- `DROP_ACK_CKSUM` -/
  | dropCksum
  /-- `DROP_ACK_RANGE` (decision D4) -/
  | dropRange
  /-- `DROP_ACK_GUARD` -/
  | dropGuard
  /-- `ACK_NOCHANGE`: `gap = 0` or `gap > W` -/
  | noChange
  /-- `0 < gap <= W` -/
  | cumulative (gap : Nat)
  deriving DecidableEq, Repr

/-- The tests of R62 on a packet presented to ACKIN while `lastAck` holds `last`. -/
def classifyAck (c : Cfg) (last : Byte) (pkt : Packet) : AckClass :=
  if verify pkt = false then .dropCksum
  else if seqOf pkt ≥ c.M then .dropRange
  else if ackGuard c.M c.W (seqOf pkt) last.toNat then .dropGuard
  else
    let gap := subM c.M (seqOf pkt) last.toNat
    if 0 < gap ∧ gap ≤ c.W then .cumulative gap else .noChange

/-! ## The conditions of PKTIN -/

/-- What PKTIN finds, in the order of its tests (R70, R81, R84). -/
inductive PktClass where
  /-- `DROP_CKSUM` -/
  | dropCksum
  /-- `DROP_SEQ` -/
  | dropSeq
  /-- `DROP_LEN` -/
  | dropLen
  /-- accepted -/
  | accept
  deriving DecidableEq, Repr

/-- The tests of R70 on a packet presented to PKTIN while `expectedSeq` holds `expected`. -/
def classifyPkt (c : Cfg) (expected : Byte) (pkt : Packet) : PktClass :=
  if verify pkt = false then .dropCksum
  else if seqOf pkt ≠ expected.toNat then .dropSeq
  else if lenOf pkt > c.maxPay then .dropLen
  else .accept

/-! ## The other conditions -/

/-- Whether EXPIRE is enabled (R77, R79): the timer is armed and, in the timed treatment, its deadline has come. -/
def expireEnabled (s : State) : Bool :=
  s.tx.tmrArmed && (match s.timing with | .untimed => true | .timed => decide (s.tx.tmrDeadline ≤ s.now))

/-- Whether `n` message bytes fit in `bufferQueue` as packets: always, when `BUF_DEPTH` is unbounded (D9, U6). -/
def roomFor (t : Sender) (n : Nat) : Bool :=
  match t.cfg.bufDepth with
  | none => true
  | some depth => decide (t.bufferQueue.length + chunkCount t.cfg n ≤ depth)

end Sys2Proof.Machine
end

