-- ==== Sys2Proof/Machine/Ops.lean ====
section
/-! DEFINITION. The operations the meanings share (spec 40_codec.md R53, 41_fragmenter.md R57, 42_sender_window.md R60 to
R66, 43_receiver.md R70, 44_timer.md R74 to R77, 70_reset_and_hazards.md R90), and the checks every meaning begins with.
The core takes no exception and returns from none (60_exceptions.md R80, R85, R86), so there is no such operation here: an
anomaly is a drop, the state as it was. -/

namespace Sys2Proof.Machine

/-! ## ENCODE -/

/-- `ENCODE(L, seq, pay)` (R53): zeros, the two header bytes, the payload, and then the checksum over all of it. -/
def encodePacket (P : Nat) (len seq : Byte) (pay : List Byte) : Packet :=
  let blank := List.replicate P 0#8
  let pkt := putBytes ((blank.set 0 len).set 1 seq) HDR pay
  memWrite pkt 2 2 (cksum pkt).toNat

/-! ## The sender -/

/-- `emit EVENT` (00_scope.md section 5.3). -/
def Sender.emit (o : Output) (t : Sender) : Sender := { t with out := t.out ++ [o] }

/-- ARM (R74): a pending expiry, if any, is replaced. -/
def Sender.arm (now d : Time) (t : Sender) : Sender := { t with tmrArmed := true, tmrDeadline := now + d }

/-- CANCEL (R75). -/
def Sender.cancel (t : Sender) : Sender := { t with tmrArmed := false }

/-- `emit XMIT(copy(pkt))`, then `emit ARM(TIMEOUT)`, which the timer obeys at once (R61, R66, R68). -/
def Sender.transmit (now : Time) (pkt : Packet) (t : Sender) : Sender :=
  ((t.emit (.xmit pkt)).emit (.arm t.cfg.timeout)).arm now t.cfg.timeout

/-- One iteration of ADMIT (R61): `pkt`, popped from `bufferQueue`, whose rest is `rest`, is pushed to `windowQueue` and
transmitted. -/
def Sender.admitOne (now : Time) (pkt : Packet) (rest : List Packet) (t : Sender) : Sender :=
  Sender.transmit now pkt { t with bufferQueue := rest, windowQueue := t.windowQueue ++ [pkt] }

/-- ADMIT's loop (R61), at most `fuel` iterations. -/
def Sender.admitLoop (now : Time) : Nat → Sender → Sender
  | 0, t => t
  | fuel + 1, t =>
    match t.bufferQueue with
    | [] => t
    | pkt :: rest =>
      if t.windowQueue.length < t.cfg.W then Sender.admitLoop now fuel (t.admitOne now pkt rest) else t

/-- ADMIT (R61): every iteration takes one packet from `bufferQueue`, so its length bounds them. -/
def Sender.admitFromBuffer (now : Time) (t : Sender) : Sender := Sender.admitLoop now t.bufferQueue.length t

/-- One iteration of FRAGMENT (R57): encode the chunk with `nextSeq`, push it to `bufferQueue`, advance `nextSeq`. -/
def Sender.pushChunk (chunk : List Byte) (t : Sender) : Sender :=
  { t with
    bufferQueue := t.bufferQueue ++ [encodePacket t.cfg.P (BitVec.ofNat 8 chunk.length) t.nextSeq chunk]
    nextSeq := nextInSpace t.cfg t.nextSeq }

/-- FRAGMENT's loop (R57) over the part of the message not yet sent, at most `fuel` iterations. -/
def Sender.fragmentLoop : Nat → List Byte → Sender → Sender
  | 0, _, t => t
  | fuel + 1, msg, t =>
    match msg with
    | [] => t
    | _ :: _ => Sender.fragmentLoop fuel (msg.drop t.cfg.maxPay) (t.pushChunk (msg.take t.cfg.maxPay))

/-- FRAGMENT (R57): every chunk has at least one byte, so the message's length bounds the iterations. -/
def Sender.fragment (msg : List Byte) (t : Sender) : Sender := Sender.fragmentLoop msg.length msg t

/-- SUBMIT (R60). -/
def Sender.submit (now : Time) (msg : List Byte) (t : Sender) : Sender := (t.fragment msg).admitFromBuffer now

/-- The cumulative case of ACKIN (R62, R65; R93 row "cumulative ack"): remove what lies in `(lastAck, ack]`, then
`lastAck <- ack`. -/
def Sender.acknowledge (ack : Byte) (gap : Nat) (t : Sender) : Sender :=
  { t with
    windowQueue := t.windowQueue.filter fun q => !acknowledged t.cfg.M t.lastAck.toNat gap q
    lastAck := ack }

/-- ACKIN (R62): a drop leaves everything as it was; every other case ends with ADMIT. -/
def Sender.onAck (now : Time) (pkt : Packet) (t : Sender) : Sender :=
  match classifyAck t.cfg t.lastAck pkt with
  | .dropCksum => t
  | .dropRange => t
  | .dropGuard => t
  | .noChange => t.admitFromBuffer now
  | .cumulative gap => (t.acknowledge (byteAt pkt 1) gap).admitFromBuffer now

/-- TIMEOUT's loop over the packets of the window, oldest first (R66). -/
def Sender.retransmit (now : Time) : List Packet → Sender → Sender
  | [], t => t
  | pkt :: rest, t => Sender.retransmit now rest (t.transmit now pkt)

/-- TIMEOUT (R66; R93 row "timeout idempotence"). -/
def Sender.onTimeout (now : Time) (t : Sender) : Sender := Sender.retransmit now t.windowQueue t

/-- EXPIRE, where it is enabled (R77): the expiry is consumed, then TIMEOUT runs. -/
def Sender.expire (now : Time) (t : Sender) : Sender := Sender.onTimeout now { t with tmrArmed := false }

/-- RESET of the sender instance (R90, R91): what it has emitted and answered is the environment's and stays. -/
def Sender.reset (t : Sender) : Sender := { Sender.initial t.cfg with out := t.out, result := t.result }

/-! ## The receiver -/

/-- `emit EVENT` (00_scope.md section 5.3). -/
def Receiver.emit (o : Output) (r : Receiver) : Receiver := { r with out := r.out ++ [o] }

/-- PKTIN (R70; R93 row "sequence monotonicity"): a drop leaves everything as it was; an accepted packet is delivered,
echoed, and `expectedSeq` advances. -/
def Receiver.onPacket (pkt : Packet) (r : Receiver) : Receiver :=
  match classifyPkt r.cfg r.expectedSeq pkt with
  | .dropCksum => r
  | .dropSeq => r
  | .dropLen => r
  | .accept =>
    { (r.emit (.deliver (payOf pkt))).emit (.xmit pkt) with expectedSeq := nextInSpace r.cfg r.expectedSeq }

/-- RESET of the receiver instance (R90, R91), as for the sender. -/
def Receiver.reset (r : Receiver) : Receiver := { Receiver.initial r.cfg with out := r.out, result := r.result }

/-! ## Either instance -/

/-- An instance answers a value to its caller. -/
def State.answer (s : State) (v : Result) : Side → State
  | .tx => { s with tx := { s.tx with result := v } }
  | .rx => { s with rx := { s.rx with result := v } }

/-- An instance emits an output event. -/
def State.emitAt (s : State) (o : Output) : Side → State
  | .tx => { s with tx := s.tx.emit o }
  | .rx => { s with rx := s.rx.emit o }

/-- A packet from the channel reaches an instance: the source's `onPacket` of that side (R43, C10). -/
def State.receive (s : State) (pkt : Packet) : Side → State
  | .tx => { s with tx := s.tx.onAck s.now pkt }
  | .rx => { s with rx := s.rx.onPacket pkt }

/-- RESET of one instance; the other is not touched (R90). -/
def State.resetAt (s : State) : Side → State
  | .tx => { s with tx := s.tx.reset }
  | .rx => { s with rx := s.rx.reset }

/-! ## What every meaning checks first -/

/-- An illegal configuration is refused (R10, U10). -/
def whenLegal (c : Cfg) (k : Outcome) : Outcome := if c.Legal then k else .refused .illegalConfiguration

/-- Format K: what is not exactly `P` bytes is no packet (R27, U8, U9). -/
def whenPacket (c : Cfg) (pkt : Packet) (k : Outcome) : Outcome :=
  whenLegal c (if wfPacket c pkt then k else .refused .notAPacket)

/-- A message whose packets would exceed a finite `BUF_DEPTH` is refused (U6). -/
def whenRoom (t : Sender) (msg : List Byte) (k : Outcome) : Outcome :=
  whenLegal t.cfg (if roomFor t msg.length then k else .refused .bufferFull)

end Sys2Proof.Machine
end

