-- ==== Sys2Proof/Machine/Channel.lean ====
section
/-! DEFINITION. The meanings of the output events, and of a packet in the wire format (spec 30_encoding.md R41, R43, R47;
log 6, log 7). -/

namespace Sys2Proof.Machine

/-- XMIT (R47): the instance hands the packet to the channel. -/
def execXmit (sd : Side) (pkt : Packet) (s : State) : Outcome :=
  whenPacket (s.cfgOf sd) pkt (.next (s.emitAt (.xmit pkt) sd))

/-- DELIVER (R47): the receiver hands one packet's payload to the layer above. -/
def execDeliver (bytes : List Byte) (s : State) : Outcome :=
  whenLegal s.rx.cfg
    (if wfDeliver s.rx.cfg bytes then .next (s.emitAt (.deliver bytes) .rx) else .refused .notAPayload)

/-- PACKET: the channel hands an instance a packet; the direction of travel tells a data packet from an acknowledgment
(R43). -/
def execPacket (sd : Side) (pkt : Packet) (s : State) : Outcome :=
  whenPacket (s.cfgOf sd) pkt (.next (s.receive pkt sd))

end Sys2Proof.Machine
end

