-- ==== Sys2Proof/Machine/Codec.lean ====
section
/-! DEFINITION. The meanings of the CODEC's operations (spec 40_codec.md). They write no state of the core: each only
answers a value (R56). -/

namespace Sys2Proof.Machine

/-- CKSUM (R50). -/
def execCksum (sd : Side) (pkt : Packet) (s : State) : Outcome :=
  whenPacket (s.cfgOf sd) pkt (.next (s.answer (.cksum (cksum pkt)) sd))

/-- ENCODE (R53); operands outside its preconditions are refused (U8). That the receiver runs it too is DESIGN CHOICE,
log 22. -/
def execEncode (sd : Side) (len seq : Byte) (pay : List Byte) (s : State) : Outcome :=
  whenLegal (s.cfgOf sd)
    (if wfEncode (s.cfgOf sd) len pay then
      .next (s.answer (.packet (encodePacket (s.cfgOf sd).P len seq pay)) sd)
    else .refused .notEncodable)

/-- VERIFY (R54). -/
def execVerify (sd : Side) (pkt : Packet) (s : State) : Outcome :=
  whenPacket (s.cfgOf sd) pkt (.next (s.answer (.bit (verify pkt)) sd))

end Sys2Proof.Machine
end

