-- ==== Sys2Proof/Machine/Fragmenter.lean ====
section
/-! DEFINITION. The meaning of the fragmenter's operation (spec 41_fragmenter.md). -/

namespace Sys2Proof.Machine

/-- FRAGMENT (R57). -/
def execFragment (msg : List Byte) (s : State) : Outcome :=
  whenRoom s.tx msg (.next { s with tx := s.tx.fragment msg })

end Sys2Proof.Machine
end

