-- ==== Sys2Proof/Machine/Sequencer.lean ====
section
/-! DEFINITION. The meaning of the receiver sequencer's operation (spec 43_receiver.md). -/

namespace Sys2Proof.Machine

/-- PKTIN (R70). -/
def execPktin (pkt : Packet) (s : State) : Outcome :=
  whenPacket s.rx.cfg pkt (.next { s with rx := s.rx.onPacket pkt })

end Sys2Proof.Machine
end

