-- ==== Sys2Proof/Machine/Timer.lean ====
section
/-! DEFINITION. The meanings of the retransmission timer's operations (spec 44_timer.md). -/

namespace Sys2Proof.Machine

/-- ARM (R74). -/
def execArm (d : Time) (s : State) : Outcome :=
  whenLegal s.tx.cfg (.next { s with tx := s.tx.arm s.now d })

/-- CANCEL (R75). -/
def execCancel (s : State) : Outcome :=
  whenLegal s.tx.cfg (.next { s with tx := s.tx.cancel })

/-- QUERY (R76). -/
def execQuery (s : State) : Outcome :=
  whenLegal s.tx.cfg (.next (s.answer (.bit s.tx.tmrArmed) .tx))

/-- EXPIRE (R77); while it is not enabled it "has no step" (log 11). -/
def execExpire (s : State) : Outcome :=
  whenLegal s.tx.cfg
    (if expireEnabled s then .next { s with tx := s.tx.expire s.now } else .refused .expireNotEnabled)

end Sys2Proof.Machine
end

