-- ==== Sys2Proof/Machine/Window.lean ====
section
/-! DEFINITION. The meanings of the sender window manager's operations (spec 42_sender_window.md). -/

namespace Sys2Proof.Machine

/-- SUBMIT (R60). -/
def execSubmit (msg : List Byte) (s : State) : Outcome :=
  whenRoom s.tx msg (.next { s with tx := s.tx.submit s.now msg })

/-- ADMIT (R61). -/
def execAdmit (s : State) : Outcome :=
  whenLegal s.tx.cfg (.next { s with tx := s.tx.admitFromBuffer s.now })

/-- ACKIN (R62). -/
def execAckin (pkt : Packet) (s : State) : Outcome :=
  whenPacket s.tx.cfg pkt (.next { s with tx := s.tx.onAck s.now pkt })

/-- TIMEOUT (R66). -/
def execTimeout (s : State) : Outcome :=
  whenLegal s.tx.cfg (.next { s with tx := s.tx.onTimeout s.now })

end Sys2Proof.Machine
end

