-- ==== Sys2Proof/Machine/Dispatch.lean ====
section
/-! DEFINITION. What each operation does, one arm per row of spec/opcode_table.json. -/

namespace Sys2Proof.Machine

def exec (i : Instr) (s : State) : Host.Outcome State Fault Refusal :=
  match i with
  | .cksum sd pkt => Sys2Proof.Machine.execCksum sd pkt s
  | .encode sd len seq pay => Sys2Proof.Machine.execEncode sd len seq pay s
  | .verify sd pkt => Sys2Proof.Machine.execVerify sd pkt s
  | .fragment msg => Sys2Proof.Machine.execFragment msg s
  | .submit msg => Sys2Proof.Machine.execSubmit msg s
  | .admitFromBuffer => Sys2Proof.Machine.execAdmit s
  | .ackin pkt => Sys2Proof.Machine.execAckin pkt s
  | .timeout => Sys2Proof.Machine.execTimeout s
  | .pktin pkt => Sys2Proof.Machine.execPktin pkt s
  | .arm d => Sys2Proof.Machine.execArm d s
  | .cancel => Sys2Proof.Machine.execCancel s
  | .query => Sys2Proof.Machine.execQuery s
  | .expire => Sys2Proof.Machine.execExpire s
  | .xmit sd pkt => Sys2Proof.Machine.execXmit sd pkt s
  | .deliver bytes => Sys2Proof.Machine.execDeliver bytes s
  | .packet sd pkt => Sys2Proof.Machine.execPacket sd pkt s

end Sys2Proof.Machine
end

