-- ==== Sys2Proof/Machine/Step.lean ====
section
/-! DEFINITION. One step: the environment dispatches its next event and the operation it selects runs to completion (spec
20_memory.md R36, 10_state.md R19, 60_exceptions.md R82). Between events the core is idle. -/

namespace Sys2Proof.Machine

/-- What an input does: RESET of an instance (R90), or the operation the presented bytes select (R46). -/
def dispatch (x : Input) (s : State) : Outcome :=
  match x with
  | .reset sd => whenLegal (s.cfgOf sd) (.next (s.resetAt sd))
  | .present sd port bytes =>
    match decodeEvent sd port (s.cfgOf sd).P bytes with
    | .error r => .refused (.undecodable r)
    | .ok i => exec i s

/-- The event is taken from the environment and its time has come (R79, R82: it "is consumed by the operation it
starts"). -/
def State.take (s : State) (e : Event) (rest : List Event) : State :=
  { s with events := rest, now := s.now + e.delay }

/-- One step of the machine. With no event to dispatch nothing happens (R82; log 9). -/
def step (s : State) : Host.Outcome State Fault Refusal :=
  match s.events with
  | [] => .next s
  | e :: rest => dispatch e.input (s.take e rest)

/-- `s` with a row of the opcode table as the next event: the row's bits and operand bytes of zeros, presented to the
instance that has the row's unit. -/
def State.withFetchWord (s : State) (nbits w : Nat) : State :=
  let sd := tableSide nbits w
  let bytes := tableEvent (s.cfgOf sd).P nbits w
  { s with events := { delay := 0, input := .present sd (tablePort nbits) bytes } :: s.events }

end Sys2Proof.Machine
end

