-- ==== Sys2Proof/Safety.lean ====
section
/-! DEFINITION. What counts as a good state and a safe run of the core, in the terms the claims use: the invariants of
spec 10_state.md R25 and 44_timer.md R78, the duties of the environment of 70_reset_and_hazards.md R92, R96 and R97, the
quiescent states of R100, and the vocabulary of the laws R52, R58 and R68 and of the promises of R93. Nothing here is part
of the machine. -/

namespace Sys2Proof.Safety

open Sys2Proof.Machine

/-! ## Vocabulary -/

/-- The outputs of transmitting `pkts` in order: `XMIT, ARM, XMIT, ARM, ...` (R68). -/
def transmissions (d : Time) (pkts : List Packet) : List Output := pkts.flatMap fun p => [.xmit p, .arm d]

/-- The sender after `pkts` have been transmitted in order: their outputs, and one pending expiry if there was any (R68,
R74). -/
def retransmitted (now : Time) (pkts : List Packet) (t : Sender) : Sender :=
  { t with
    out := t.out ++ transmissions t.cfg.timeout pkts
    tmrArmed := if pkts = [] then t.tmrArmed else true
    tmrDeadline := if pkts = [] then t.tmrDeadline else now + t.cfg.timeout }

/-- The packets ADMIT moves: the oldest of `bufferQueue`, as many as the window has room for (R61). -/
def admissible (t : Sender) : List Packet :=
  t.bufferQueue.take (min (t.cfg.W - t.windowQueue.length) t.bufferQueue.length)

/-- The sender after ADMIT, in closed form: the admissible packets have moved from the front of `bufferQueue` to the back
of `windowQueue` and have been transmitted (R61). -/
def admitted (now : Time) (t : Sender) : Sender :=
  retransmitted now (admissible t)
    { t with
      bufferQueue := t.bufferQueue.drop (admissible t).length
      windowQueue := t.windowQueue ++ admissible t }

/-- `pkt[i] || pkt[i+1]` (R29). -/
def wordAt (pkt : Packet) (i : Nat) : Nat := (byteAt pkt i).toNat * 256 + (byteAt pkt (i + 1)).toNat

/-- Several operations one after the other, up to the first that answers no next state. -/
def execAll : List Instr → State → Outcome
  | [], s => .next s
  | i :: rest, s =>
    match exec i s with
    | .next t => execAll rest t
    | .fault f => .fault f
    | .refused r => .refused r

/-- The bytes a trace hands to the layer above the receiver: the concatenation of its DELIVERs (R72; R93 row "in-order,
exactly-once delivery"). -/
def delivered : List Output → List Byte
  | [] => []
  | .deliver bytes :: rest => bytes ++ delivered rest
  | .xmit _ :: rest => delivered rest
  | .arm _ :: rest => delivered rest

/-- Chunk `j` of a message: `msg[j*MAXPAY .. min((j+1)*MAXPAY, n))` (R58). -/
def chunk (c : Cfg) (msg : List Byte) (j : Nat) : List Byte := (msg.drop (j * c.maxPay)).take c.maxPay

/-- Packet `j` of a message whose first packet has sequence number `s0` (R58). -/
def packetOf (c : Cfg) (s0 : Nat) (msg : List Byte) (j : Nat) : Packet :=
  encodePacket c.P (BitVec.ofNat 8 (chunk c msg j).length) (BitVec.ofNat 8 (addM c.M s0 j)) (chunk c msg j)

/-- The packets of a message, in order (R58). -/
def packetsOf (c : Cfg) (s0 : Nat) (msg : List Byte) : List Packet :=
  (List.range (chunkCount c msg.length)).map (packetOf c s0 msg)

/-- The one's-complement sum of words whose plain total is `total` (R52, closed form): `0` only for a total of `0`, and
`0xFFFF` for a non-zero multiple of 65535. -/
def onesComplementSum (total : Nat) : Nat :=
  if total = 0 then 0 else if total % 65535 = 0 then 65535 else total % 65535

/-- `FLIP(pkt, off, mask)` (R49): a corruption in the channel. -/
def flipBits (pkt : Packet) (off : Nat) (mask : Byte) : Packet := pkt.set off (byteAt pkt off ^^^ mask)

/-- A fold looped to exhaustion, which the source does not use (R51, R52, C4). -/
def fullFold (sum : Nat) : Nat :=
  let once := sum % 65536 + sum / 65536
  once % 65536 + once / 65536

/-- The time has come at which the pending expiry is due, as A-FAIR promises it will (R79); in the untimed treatment no rule
reads it. -/
def atExpiry (s : Machine.State) : Machine.State := { s with now := max s.now s.tx.tmrDeadline }

/-- What recovers a loss (R93 row "eventual delivery", A-FAIR, A-CHAN; log 21): the timer expires, every packet the expiry
retransmits reaches the receiver in order, and of the acknowledgments the one of the newest packet reaches the sender. With an
empty window nothing is outstanding and nothing happens. -/
def recoveryRound (s : Machine.State) : List Instr :=
  match s.tx.windowQueue.getLast? with
  | none => []
  | some newest => .expire :: (s.tx.windowQueue.map .pktin ++ [.ackin newest])

/-- Rounds of recovery one after the other (R93 row "eventual delivery"). -/
def recoveryRounds : Nat → Machine.State → Outcome
  | 0, s => .next s
  | n + 1, s =>
    match execAll (recoveryRound s) (atExpiry s) with
    | .next t => recoveryRounds n t
    | .fault f => .fault f
    | .refused r => .refused r

/-- The operation the next event selects, if it is an operation the decoder knows. -/
def selected (s : Machine.State) : Option Instr :=
  match s.events with
  | [] => none
  | e :: _ =>
    match e.input with
    | .reset _ => none
    | .present sd port bytes =>
      match decodeEvent sd port (s.cfgOf sd).P bytes with
      | .error _ => none
      | .ok i => some i

/-! ## Invariants -/

/-- R10 for both instances. -/
abbrev Configured (s : State) : Prop := s.tx.cfg.Legal ∧ s.rx.cfg.Legal

/-- A packet FRAGMENT could have made (R25 INV-P, R45 "well-formed"): `P` bytes, a good checksum, `len` in `1..MAXPAY`,
`seq` in `0..M-1`, zero padding. -/
abbrev Genuine (c : Cfg) (pkt : Packet) : Prop :=
  pkt.length = c.P ∧ verify pkt = true ∧ 1 ≤ lenOf pkt ∧ lenOf pkt ≤ c.maxPay ∧ seqOf pkt < c.M ∧
    ∀ b ∈ pkt.drop (HDR + lenOf pkt), b = 0#8

/-- INV-W (R17, R25; R93 row "window bound"): `windowQueue.len <= W`. -/
abbrev WindowBounded (t : Sender) : Prop := t.windowQueue.length ≤ t.cfg.W

/-- INV-A (R25): `windowQueue.len = W` or `bufferQueue.len = 0`. -/
abbrev Settled (t : Sender) : Prop := t.windowQueue.length = t.cfg.W ∨ t.bufferQueue.length = 0

/-- INV-R (R25) for the sender: `nextSeq` and `lastAck` are in `0..M-1`. -/
abbrev SequencesInRange (t : Sender) : Prop := t.nextSeq.toNat < t.cfg.M ∧ t.lastAck.toNat < t.cfg.M

/-- INV-R (R25) for the receiver: `expectedSeq` is in `0..M-1`. -/
abbrev ExpectedInRange (r : Receiver) : Prop := r.expectedSeq.toNat < r.cfg.M

/-- INV-P (R25): every packet in either queue is one FRAGMENT could have made. -/
abbrev QueuesGenuine (t : Sender) : Prop := ∀ pkt ∈ t.windowQueue ++ t.bufferQueue, Genuine t.cfg pkt

/-- INV-T (R78): while the window is not empty an expiry is pending. -/
abbrev TimerCovers (t : Sender) : Prop := t.windowQueue ≠ [] → t.tmrArmed = true

/-- The two queues read as one list, window first (R32). -/
def outstanding (t : Sender) : List Packet := t.windowQueue ++ t.bufferQueue

/-- INV-S (R25): consecutive packets have consecutive sequence numbers, and the newest has `nextSeq -M 1`. -/
def Consecutive (t : Sender) : Prop :=
  (∀ j p q, (outstanding t)[j]? = some p → (outstanding t)[j + 1]? = some q → seqOf q = addM t.cfg.M (seqOf p) 1) ∧
    ∀ p, (outstanding t).getLast? = some p → seqOf p = subM t.cfg.M t.nextSeq.toNat 1

/-- INV-F (R25): the window's front packet has sequence number `lastAck +M 1`. -/
def FrontFollowsLastAck (t : Sender) : Prop :=
  ∀ p, t.windowQueue.head? = some p → seqOf p = addM t.cfg.M t.lastAck.toNat 1

/-- INV-S and INV-F in one inductive form: the outstanding packets are numbered from `lastAck +M 1` on without a gap, and
`nextSeq` continues them. -/
abbrev Numbered (t : Sender) : Prop :=
  (outstanding t).map seqOf = (List.range (outstanding t).length).map (fun j => addM t.cfg.M t.lastAck.toNat (1 + j)) ∧
    t.nextSeq.toNat = addM t.cfg.M t.lastAck.toNat (1 + (outstanding t).length)

/-- What holds whatever the environment does: legal configurations, INV-W, INV-R, INV-P. -/
abbrev Sound (s : State) : Prop :=
  Configured s ∧ WindowBounded s.tx ∧ SequencesInRange s.tx ∧ QueuesGenuine s.tx ∧ ExpectedInRange s.rx

/-! ## Duties of the environment -/

/-- E-ACK (R96) for one packet presented to ACKIN: if it passes VERIFY and is in the sequence space and its `gap` is at most
`W`, then `gap` is at most the number of packets in the window (log 19). -/
abbrev AckHonest (t : Sender) (pkt : Packet) : Prop :=
  verify pkt = true → seqOf pkt < t.cfg.M → subM t.cfg.M (seqOf pkt) t.lastAck.toNat ≤ t.cfg.W →
    subM t.cfg.M (seqOf pkt) t.lastAck.toNat ≤ t.windowQueue.length

/-- E-ACK (R96) for the operation an event selects. -/
def AcksHonest (t : Sender) : Instr → Prop
  | .ackin pkt => AckHonest t pkt
  | .packet .tx pkt => AckHonest t pkt
  | _ => True

/-- E-PAIR (R92) as far as the two instances show it: one legal configuration, and sequence numbers that agree. -/
abbrev Paired (s : State) : Prop :=
  s.tx.cfg = s.rx.cfg ∧ s.tx.cfg.Legal ∧ s.rx.expectedSeq = s.tx.nextSeq

/-- The receiver has accepted the first `accepted` of the outstanding packets, and expects the next. -/
abbrev HasAccepted (s : State) (accepted : Nat) : Prop :=
  s.rx.expectedSeq.toNat = addM s.tx.cfg.M s.tx.lastAck.toNat (1 + accepted)

/-- R95 (H-LOSTACK) does not strike: of a window that is not empty the receiver has not accepted all. -/
abbrev NewestNotYetAccepted (s : State) (accepted : Nat) : Prop :=
  accepted < s.tx.windowQueue.length ∨ accepted = 0

/-- R100, D14: the sender instance is quiescent. -/
abbrev SenderQuiescent (t : Sender) : Prop := t.bufferQueue = [] ∧ t.windowQueue = [] ∧ t.tmrArmed = false

end Sys2Proof.Safety
end

