-- ==== Sys2Proof/Certificates/Slice0/Obligations.lean ====
section
/-! DEFINITION. The statements about the model, for the provers: each formalises the rules of spec/ its docstring cites.
Nothing is proved here. -/

open Sys2Proof Sys2Proof.Machine Sys2Proof.Safety

/-! ## The codec -/

/-- R51: the single-step carry fold. -/
def Obligations.FoldIsASingleStep : Prop :=
  (∀ sum : Nat, fold sum = if sum ≥ 0x10000 then (sum &&& 0xFFFF) + 1 else sum) ∧
    fold 0x1FFFE = 0xFFFF ∧ fold 0x10000 = 0x0001 ∧ fold 0xFFFF = 0xFFFF

/-- R52: the running sum needs 17 bits, the single-step fold is a full fold wherever CKSUM uses it, and the sum after the
walk is the one's-complement sum of the seed word and the words of the walk. -/
def Obligations.ChecksumSumIsOnesComplement : Prop :=
  ∀ pkt : Packet,
    let seed := wordAt pkt 0
    let words := (List.range ((pkt.length - 4) / 2)).map fun k => wordAt pkt (4 + 2 * k)
    let sumAfter := fun n => (words.take n).foldl (fun sum word => fold (sum + word)) seed
    fold seed = seed ∧
      (∀ n, sumAfter n ≤ 0xFFFF) ∧
      (∀ n word, words[n]? = some word →
        sumAfter n + word ≤ 0x1FFFE ∧ fold (sumAfter n + word) = fullFold (sumAfter n + word)) ∧
      cksumSum pkt = onesComplementSum (seed + words.sum)

/-- R50: CKSUM answers the checksum of the pseudocode, at either instance, and changes nothing else. -/
def Obligations.CksumAnswersTheChecksum : Prop :=
  ∀ (s : State) (pkt : Packet),
    let sum := (List.range ((pkt.length - 4) / 2)).foldl (fun sum k => fold (sum + wordAt pkt (4 + 2 * k)))
      (fold (wordAt pkt 0))
    let c : Word16 := BitVec.ofNat 16 (65535 - (sum &&& 0xFFFF))
    (s.tx.cfg.Legal → pkt.length = s.tx.cfg.P →
      exec (.cksum .tx pkt) s = .next { s with tx := { s.tx with result := .cksum c } }) ∧
    (s.rx.cfg.Legal → pkt.length = s.rx.cfg.P →
      exec (.cksum .rx pkt) s = .next { s with rx := { s.rx with result := .cksum c } })

/-- R53, R56: ENCODE answers the packet with that header, payload, zero padding and checksum, at either instance, and changes
nothing else. R53 has `seq` in `0..M-1`; that every sequence byte is taken is what U8 allows and log 15 chooses;
that the receiver runs ENCODE, which it never calls (R2, R70), is log 22's choice. -/
def Obligations.EncodeBuildsTheWireFormat : Prop :=
  ∀ (s : State) (len seq : Byte) (pay : List Byte), pay.length = len.toNat →
    let built := fun (P : Nat) (pkt : Packet) =>
      pkt.length = P ∧ byteAt pkt 0 = len ∧ byteAt pkt 1 = seq ∧
        (∀ k, k < len.toNat → pkt[4 + k]? = pay[k]?) ∧
        (∀ i, 4 + len.toNat ≤ i → i < P → pkt[i]? = some 0#8) ∧
        wordAt pkt 2 = (cksum pkt).toNat
    (s.tx.cfg.Legal → len.toNat ≤ s.tx.cfg.P - 4 →
      ∃ pkt, built s.tx.cfg.P pkt ∧
        exec (.encode .tx len seq pay) s = .next { s with tx := { s.tx with result := .packet pkt } }) ∧
    (s.rx.cfg.Legal → len.toNat ≤ s.rx.cfg.P - 4 →
      ∃ pkt, built s.rx.cfg.P pkt ∧
        exec (.encode .rx len seq pay) s = .next { s with rx := { s.rx with result := .packet pkt } })

/-- R54: VERIFY answers the exact equality of CKSUM and the checksum field, at either instance, and changes nothing
else. -/
def Obligations.VerifyAnswersFieldEquality : Prop :=
  ∀ (s : State) (pkt : Packet),
    let ok := decide ((cksum pkt).toNat = wordAt pkt 2)
    (s.tx.cfg.Legal → pkt.length = s.tx.cfg.P →
      exec (.verify .tx pkt) s = .next { s with tx := { s.tx with result := .bit ok } }) ∧
    (s.rx.cfg.Legal → pkt.length = s.rx.cfg.P →
      exec (.verify .rx pkt) s = .next { s with rx := { s.rx with result := .bit ok } })

/-- R54, R93 (checksum soundness): what ENCODE builds passes VERIFY, for all legal operands, and for a sequence byte in
`M..255` too, which U8 allows and log 15 takes. -/
def Obligations.EncodedPacketsVerify : Prop :=
  ∀ (c : Cfg) (len seq : Byte) (pay : List Byte), c.Legal → pay.length = len.toNat → len.toNat ≤ c.maxPay →
    verify (encodePacket c.P len seq pay) = true

/-- R55: flipping any single bit of a packet that passes VERIFY makes it fail; outside the checksum field the flip changes
the computed checksum, inside it does not. -/
def Obligations.SingleBitErrorsAreDetected : Prop :=
  ∀ (c : Cfg) (pkt : Packet) (off bit : Nat), c.Legal → pkt.length = c.P → verify pkt = true → off < c.P → bit < 8 →
    verify (flipBits pkt off (1#8 <<< bit)) = false ∧
      (off = 2 ∨ off = 3 → cksum (flipBits pkt off (1#8 <<< bit)) = cksum pkt) ∧
      (off ≠ 2 → off ≠ 3 → cksum (flipBits pkt off (1#8 <<< bit)) ≠ cksum pkt)

/-- R50 corner case (c), R55: the order of the covered words does not matter, so an exchange of words is not detected. -/
def Obligations.ExchangedWordsAreNotDetected : Prop :=
  ∀ p q : Packet, p.length = q.length → wordAt p 2 = wordAt q 2 →
    (wordAt p 0 :: (List.range ((p.length - 4) / 2)).map fun k => wordAt p (4 + 2 * k)).Perm
      (wordAt q 0 :: (List.range ((q.length - 4) / 2)).map fun k => wordAt q (4 + 2 * k)) →
    cksum p = cksum q ∧ verify p = verify q

/-! ## The fragmenter -/

/-- R58: the chunking law. FRAGMENT appends to `bufferQueue` exactly `ceil(n / MAXPAY)` packets, each with its chunk, length
and sequence number, and advances `nextSeq` by their number; their payloads are the message; nothing else changes. -/
def Obligations.FragmentFollowsTheChunkingLaw : Prop :=
  ∀ (s : State) (msg : List Byte), s.tx.cfg.Legal → s.tx.nextSeq.toNat < s.tx.cfg.M →
    let c := s.tx.cfg
    let n := msg.length
    let k := (n + c.maxPay - 1) / c.maxPay
    (∀ depth, c.bufDepth = some depth → s.tx.bufferQueue.length + k ≤ depth) →
    ∃ pkts : List Packet,
      exec (.fragment msg) s =
        .next { s with tx := { s.tx with
          bufferQueue := s.tx.bufferQueue ++ pkts
          nextSeq := BitVec.ofNat 8 ((s.tx.nextSeq.toNat + k) % c.M) } } ∧
      pkts.length = k ∧
      (∀ j, j < k →
        let len := if j + 1 < k then c.maxPay else n - (k - 1) * c.maxPay
        1 ≤ len ∧ len ≤ c.maxPay ∧
        ∃ pkt, pkts[j]? = some pkt ∧ Genuine c pkt ∧ lenOf pkt = len ∧
          seqOf pkt = (s.tx.nextSeq.toNat + j) % c.M ∧ payOf pkt = (msg.drop (j * c.maxPay)).take len) ∧
      pkts.flatMap payOf = msg

/-- R99 (H-BOUNDARY), R40: a message cut at a multiple of `MAXPAY` is fragmented as its two parts one after the other, so a
boundary there is not carried. -/
def Obligations.MessageBoundariesAreNotCarried : Prop :=
  ∀ (s u : State) (first second : List Byte), s.tx.nextSeq.toNat < s.tx.cfg.M → s.tx.cfg.bufDepth = none →
    first.length % s.tx.cfg.maxPay = 0 →
    exec (.fragment first) s = .next u → exec (.fragment (first ++ second)) s = exec (.fragment second) u

/-! ## The sender window manager -/

/-- R60: SUBMIT is FRAGMENT and then ADMIT. -/
def Obligations.SubmitIsFragmentThenAdmit : Prop :=
  ∀ (s u : State) (msg : List Byte), exec (.fragment msg) s = .next u →
    exec (.submit msg) s = exec .admitFromBuffer u

/-- R57, R58, R60, R61: SUBMIT queues the message's packets behind those already waiting, and then the window takes and
transmits as many of the oldest as it has room for; nothing else changes. -/
def Obligations.SubmitTransmitsWhatFits : Prop :=
  ∀ (s : State) (msg : List Byte), s.tx.cfg.Legal → s.tx.nextSeq.toNat < s.tx.cfg.M →
    let c := s.tx.cfg
    let k := (msg.length + c.maxPay - 1) / c.maxPay
    (∀ depth, c.bufDepth = some depth → s.tx.bufferQueue.length + k ≤ depth) →
    exec (.submit msg) s =
      .next { s with tx := admitted s.now { s.tx with
        bufferQueue := s.tx.bufferQueue ++ packetsOf c s.tx.nextSeq.toNat msg
        nextSeq := BitVec.ofNat 8 ((s.tx.nextSeq.toNat + k) % c.M) } }

/-- R61: ADMIT moves `min(W - windowQueue.len, bufferQueue.len)` packets from the front of `bufferQueue` to the back of
`windowQueue`, emits `XMIT, ARM` for each in order, leaves one pending expiry if it moved any, and changes nothing else; it
keeps INV-W and establishes INV-A. -/
def Obligations.AdmitMovesTheOldestPackets : Prop :=
  ∀ s : State, s.tx.cfg.Legal →
    let k := min (s.tx.cfg.W - s.tx.windowQueue.length) s.tx.bufferQueue.length
    let moved := s.tx.bufferQueue.take k
    ∃ t : Sender,
      exec .admitFromBuffer s = .next { s with tx := t } ∧
      t = { s.tx with
        bufferQueue := s.tx.bufferQueue.drop k
        windowQueue := s.tx.windowQueue ++ moved
        out := s.tx.out ++ moved.flatMap fun pkt => [.xmit pkt, .arm s.tx.cfg.timeout]
        tmrArmed := if k = 0 then s.tx.tmrArmed else true
        tmrDeadline := if k = 0 then s.tx.tmrDeadline else s.now + s.tx.cfg.timeout } ∧
      (s.tx.windowQueue.length ≤ s.tx.cfg.W →
        t.windowQueue.length ≤ s.tx.cfg.W ∧ (t.windowQueue.length = s.tx.cfg.W ∨ t.bufferQueue.length = 0))

/-- R25 (INV-A) and its consequence, R60, R61: where the window is full or the buffer empty, ADMIT and an empty SUBMIT
change nothing and emit nothing. -/
def Obligations.SettledSenderAdmitsNothing : Prop :=
  ∀ s : State, s.tx.cfg.Legal → s.tx.windowQueue.length = s.tx.cfg.W ∨ s.tx.bufferQueue.length = 0 →
    exec .admitFromBuffer s = .next s ∧
      ((∀ depth, s.tx.cfg.bufDepth = some depth → s.tx.bufferQueue.length ≤ depth) → exec (.submit []) s = .next s)

/-- R62, R63, R64, R65: ACKIN drops what fails the checksum, the range check or the guard, and changes nothing then (the range
check `ack >= M` is the spec's decision D4 and not in its source);
otherwise a cumulative acknowledgment removes `(lastAck, ack]` from the window and moves `lastAck`, a duplicate or stale one
removes nothing, and ADMIT follows; nothing else changes. -/
def Obligations.AckinFollowsItsTests : Prop :=
  ∀ (s : State) (pkt : Packet), s.tx.cfg.Legal → pkt.length = s.tx.cfg.P →
    let c := s.tx.cfg
    let ack := (byteAt pkt 1).toNat
    let last := s.tx.lastAck.toNat
    let gap := (((ack : Int) - (last : Int)) % (c.M : Int)).toNat
    exec (.ackin pkt) s = .next (
      if (cksum pkt).toNat ≠ wordAt pkt 2 then s
      else if ack ≥ c.M then s
      else if ack > last ∧ last + c.M - ack ≤ c.W then s
      else if 0 < gap ∧ gap ≤ c.W then
        { s with tx := admitted s.now { s.tx with
          windowQueue := s.tx.windowQueue.filter fun q =>
            !(decide (1 ≤ subM c.M (seqOf q) last) && decide (subM c.M (seqOf q) last ≤ gap))
          lastAck := byteAt pkt 1 } }
      else { s with tx := admitted s.now s.tx })

/-- R63, R98: what the guard amounts to. It is true exactly for an `ack` numerically above `lastAck` by at least `M - W`; if
`2W < M` every such `ack` is stale anyway; if not, it takes in acknowledgments with `M - W <= gap <= W`; at the sentinel it
is false. -/
def Obligations.GuardRejectsLateWraps : Prop :=
  ∀ (c : Cfg) (ack last : Nat), c.Legal → ack < c.M → last < c.M →
    (ackGuard c.M c.W ack last = true ↔ last < ack ∧ c.M - c.W ≤ ack - last) ∧
    (ackGuard c.M c.W ack last = true → 2 * c.W < c.M → c.W < subM c.M ack last) ∧
    (c.M ≤ 2 * c.W → last < ack → c.M - c.W ≤ subM c.M ack last → subM c.M ack last ≤ c.W →
      ackGuard c.M c.W ack last = true) ∧
    (last = c.M - 1 → ackGuard c.M c.W ack last = false)

/-- R62, R44, R99 (H-ACKLEN): ACKIN reads of a packet its checksum's validity and its sequence byte, and nothing else. -/
def Obligations.AckinReadsOnlyValidityAndSequence : Prop :=
  ∀ (s : State) (p q : Packet), p.length = q.length → verify p = verify q → byteAt p 1 = byteAt q 1 →
    exec (.ackin p) s = exec (.ackin q) s

/-- R65 (b), R93 (cumulative ack): while the outstanding packets are numbered from `lastAck +M 1` on (INV-S and INV-F), an
acknowledgment with `gap = k`, `0 < k <= W`, of a packet that is in the window (E-ACK) removes exactly the `k` packets at
the front of the window, those with sequence numbers `lastAck+1 .. ack`. -/
def Obligations.CumulativeAckPopsTheFront : Prop :=
  ∀ (s : State) (pkt : Packet), s.tx.cfg.Legal → pkt.length = s.tx.cfg.P → WindowBounded s.tx →
    SequencesInRange s.tx → Numbered s.tx →
    verify pkt = true → seqOf pkt < s.tx.cfg.M →
    ackGuard s.tx.cfg.M s.tx.cfg.W (seqOf pkt) s.tx.lastAck.toNat = false →
    let gap := subM s.tx.cfg.M (seqOf pkt) s.tx.lastAck.toNat
    0 < gap → gap ≤ s.tx.cfg.W → gap ≤ s.tx.windowQueue.length →
    exec (.ackin pkt) s =
        .next { s with tx := admitted s.now { s.tx with
          windowQueue := s.tx.windowQueue.drop gap
          lastAck := byteAt pkt 1 } } ∧
      (s.tx.windowQueue.take gap).map seqOf =
        (List.range gap).map fun j => addM s.tx.cfg.M s.tx.lastAck.toNat (1 + j)

/-- R66: TIMEOUT emits `XMIT, ARM` for every packet of the window, oldest first, re-arms the timer if there was any, and
changes neither a register nor a queue; with an empty window it does nothing. -/
def Obligations.TimeoutRetransmitsTheWindow : Prop :=
  ∀ s : State, s.tx.cfg.Legal →
    exec .timeout s =
      .next { s with tx := { s.tx with
        out := s.tx.out ++ s.tx.windowQueue.flatMap fun pkt => [.xmit pkt, .arm s.tx.cfg.timeout]
        tmrArmed := if s.tx.windowQueue = [] then s.tx.tmrArmed else true
        tmrDeadline := if s.tx.windowQueue = [] then s.tx.tmrDeadline else s.now + s.tx.cfg.timeout } }

/-- R66, R93 (timeout idempotence): a second TIMEOUT emits the same outputs again and leaves the registers, the queues and
the timer as the first left them. -/
def Obligations.TimeoutIsIdempotent : Prop :=
  ∀ s t : State, exec .timeout s = .next t →
    ∃ outputs, t.tx.out = s.tx.out ++ outputs ∧
      exec .timeout t = .next { t with tx := { t.tx with out := t.tx.out ++ outputs } } ∧
      t.tx.lastAck = s.tx.lastAck ∧ t.tx.nextSeq = s.tx.nextSeq ∧ t.tx.windowQueue = s.tx.windowQueue ∧
      t.tx.bufferQueue = s.tx.bufferQueue

/-- R68, R78, R94: whatever a window operation of the sender transmits, its outputs are `XMIT, ARM, XMIT, ARM, ...` with
`d = TIMEOUT`; if it transmits anything one expiry is pending, `TIMEOUT` after now, and if not the deadline is as it was; and
every packet it transmits is in its window afterwards (R33, R59). That an EXPIRE which transmits nothing leaves the deadline,
meaningless then (U4), as it was is DEDUCED (log 10). -/
def Obligations.EveryTransmissionRearms : Prop :=
  ∀ (s t : State) (i : Instr),
    (∃ msg, i = .submit msg) ∨ i = .admitFromBuffer ∨ (∃ pkt, i = .ackin pkt) ∨ (∃ pkt, i = .packet .tx pkt) ∨
      i = .timeout ∨ i = .expire →
    exec i s = .next t →
    ∃ pkts : List Packet,
      t.tx.out = s.tx.out ++ pkts.flatMap (fun pkt => [.xmit pkt, .arm s.tx.cfg.timeout]) ∧
      (pkts ≠ [] → t.tx.tmrArmed = true ∧ t.tx.tmrDeadline = s.now + s.tx.cfg.timeout) ∧
      (pkts = [] → t.tx.tmrArmed = (if i = .expire then false else s.tx.tmrArmed) ∧
        t.tx.tmrDeadline = s.tx.tmrDeadline) ∧
      ∀ pkt ∈ pkts, pkt ∈ t.tx.windowQueue

/-- R18, R59, R67: no queued packet is ever altered. Whatever an operation leaves in the sender's queues was there before,
byte for byte, or is a packet FRAGMENT or SUBMIT has just made from its message; and what is removed is removed from the
window by an acknowledgment. -/
def Obligations.QueuedPacketsAreNeverAltered : Prop :=
  ∀ (s t : State) (i : Instr), s.tx.nextSeq.toNat < s.tx.cfg.M → exec i s = .next t →
    (∀ pkt ∈ outstanding t.tx, pkt ∈ outstanding s.tx ∨
      ∃ msg, (i = .fragment msg ∨ i = .submit msg) ∧ pkt ∈ packetsOf s.tx.cfg s.tx.nextSeq.toNat msg) ∧
    (∀ pkt ∈ outstanding s.tx, pkt ∈ outstanding t.tx ∨
      (pkt ∈ s.tx.windowQueue ∧ ∃ ackPkt, i = .ackin ackPkt ∨ i = .packet .tx ackPkt))

/-! ## The receiver -/

/-- R70: PKTIN accepts exactly a packet with a good checksum, the expected sequence number and a length in range: it delivers
exactly `len` payload bytes, echoes the packet unmodified, advances `expectedSeq` modulo `M`, and changes nothing else; any
other packet it discards without any change. That a packet with `len = 0` is delivered, as zero bytes, is the spec's decision
D8. -/
def Obligations.PktinAcceptsOnlyTheExpectedPacket : Prop :=
  ∀ (s : State) (pkt : Packet), s.rx.cfg.Legal → pkt.length = s.rx.cfg.P →
    let payload := (pkt.drop 4).take (byteAt pkt 0).toNat
    exec (.pktin pkt) s = .next (
      if (cksum pkt).toNat = wordAt pkt 2 ∧ byteAt pkt 1 = s.rx.expectedSeq ∧ (byteAt pkt 0).toNat ≤ s.rx.cfg.P - 4 then
        { s with rx := { s.rx with
          expectedSeq := BitVec.ofNat 8 ((s.rx.expectedSeq.toNat + 1) % s.rx.cfg.M)
          out := s.rx.out ++ [.deliver payload, .xmit pkt] } }
      else s) ∧
    ((byteAt pkt 0).toNat ≤ s.rx.cfg.P - 4 → payload.length = (byteAt pkt 0).toNat)

/-- R70 corner case (a), R95 (H-LOSTACK), R71: once a packet has been accepted, another copy of it is dropped and not
acknowledged again. -/
def Obligations.AcceptedPacketIsNotAcknowledgedAgain : Prop :=
  ∀ (s t : State) (pkt : Packet), exec (.pktin pkt) s = .next t → t.rx.out ≠ s.rx.out →
    exec (.pktin pkt) t = .next t

/-- R95 (H-LOSTACK): when none of the window's packets is the one the receiver expects, EXPIRE retransmits them all and the
receiver drops them all: the receiver, the sender's registers and its queues are as before, and an expiry is pending
again. -/
def Obligations.LostFinalAckIsNeverRepaired : Prop :=
  ∀ s : State, s.tx.cfg.Legal → s.rx.cfg = s.tx.cfg → expireEnabled s = true → s.tx.windowQueue ≠ [] →
    (∀ pkt ∈ s.tx.windowQueue, pkt.length = s.tx.cfg.P ∧ byteAt pkt 1 ≠ s.rx.expectedSeq) →
    ∃ t, exec .expire s = .next t ∧ execAll (s.tx.windowQueue.map .pktin) t = .next t ∧ t.rx = s.rx ∧
      t.tx.windowQueue = s.tx.windowQueue ∧ t.tx.bufferQueue = s.tx.bufferQueue ∧ t.tx.lastAck = s.tx.lastAck ∧
      t.tx.nextSeq = s.tx.nextSeq ∧ t.tx.tmrArmed = true

/-- R72, R93 (in-order, exactly-once delivery): the packets FRAGMENT makes of a message, presented to a paired receiver in
the order made, are all accepted; the concatenation of the deliveries is the message, each packet is echoed once, and
`expectedSeq` agrees with `nextSeq` again. -/
def Obligations.MessageIsDeliveredExactlyOnce : Prop :=
  ∀ (s u : State) (msg : List Byte), Paired s → SequencesInRange s.tx → exec (.fragment msg) s = .next u →
    let pkts := u.tx.bufferQueue.drop s.tx.bufferQueue.length
    ∃ t, execAll (pkts.map .pktin) u = .next t ∧
      delivered t.rx.out = delivered s.rx.out ++ msg ∧
      t.rx.out = s.rx.out ++ pkts.flatMap (fun pkt => [.deliver (payOf pkt), .xmit pkt]) ∧
      t.tx = u.tx ∧ Paired t

/-! ## The timer -/

/-- R74: ARM makes one expiry pending, `d` after now, in place of any earlier one, and changes nothing else; it emits
nothing. -/
def Obligations.ArmReplacesThePendingExpiry : Prop :=
  ∀ (s : State) (d : Time), s.tx.cfg.Legal →
    exec (.arm d) s = .next { s with tx := { s.tx with tmrArmed := true, tmrDeadline := s.now + d } }

/-- R75: CANCEL makes the timer Idle, also when it is Idle already, and changes nothing else. That the deadline, meaningless
then (U4), stays as it was is DEDUCED (log 10). -/
def Obligations.CancelMakesTheTimerIdle : Prop :=
  ∀ s : State, s.tx.cfg.Legal →
    exec .cancel s = .next { s with tx := { s.tx with tmrArmed := false } } ∧
      (s.tx.tmrArmed = false → exec .cancel s = .next s)

/-- R76: QUERY answers `tmrArmed` and writes no state of the core. -/
def Obligations.QueryAnswersWhetherArmed : Prop :=
  ∀ s : State, s.tx.cfg.Legal →
    exec .query s = .next { s with tx := { s.tx with result := .bit s.tx.tmrArmed } }

/-- R77, R79: while EXPIRE is enabled (the timer armed and, in the timed treatment, its deadline reached) it consumes the
expiry and runs TIMEOUT, which re-arms exactly when the window is not empty; nothing else changes. The expiry is consumed first by the spec's decision
D5; that with an empty window the deadline, meaningless then (U4), stays as it was is DEDUCED (log 10). -/
def Obligations.ExpireConsumesAndRetransmits : Prop :=
  ∀ s : State, s.tx.cfg.Legal → s.tx.tmrArmed = true → (s.timing = .timed → s.tx.tmrDeadline ≤ s.now) →
    exec .expire s =
      .next { s with tx := { s.tx with
        out := s.tx.out ++ s.tx.windowQueue.flatMap fun pkt => [.xmit pkt, .arm s.tx.cfg.timeout]
        tmrArmed := if s.tx.windowQueue = [] then false else true
        tmrDeadline := if s.tx.windowQueue = [] then s.tx.tmrDeadline else s.now + s.tx.cfg.timeout } }

/-- R77, R79: while it is not enabled EXPIRE has no step: the model refuses it by name (log 11). -/
def Obligations.ExpireHasNoStepWhileNotEnabled : Prop :=
  ∀ s : State, s.tx.cfg.Legal →
    s.tx.tmrArmed = false ∨ (s.timing = .timed ∧ s.now < s.tx.tmrDeadline) →
    exec .expire s = .refused .expireNotEnabled

/-- R78 (INV-T): while the window is not empty the timer is armed. Every step keeps it but a CANCEL. -/
def Obligations.StepKeepsTimerArmedForWindow : Prop :=
  ∀ s t : State, TimerCovers s.tx → selected s ≠ some .cancel → step s = .next t → TimerCovers t.tx

/-! ## The output events and the wire format -/

/-- R47, log 7: XMIT hands the packet to the channel, from either instance, and changes nothing else. -/
def Obligations.XmitEmitsThePacket : Prop :=
  ∀ (s : State) (pkt : Packet),
    (s.tx.cfg.Legal → pkt.length = s.tx.cfg.P →
      exec (.xmit .tx pkt) s = .next { s with tx := { s.tx with out := s.tx.out ++ [.xmit pkt] } }) ∧
    (s.rx.cfg.Legal → pkt.length = s.rx.cfg.P →
      exec (.xmit .rx pkt) s = .next { s with rx := { s.rx with out := s.rx.out ++ [.xmit pkt] } })

/-- R47, R72, log 7: DELIVER hands one packet's payload to the layer above the receiver and changes nothing else; more bytes
than a payload can have are refused. -/
def Obligations.DeliverEmitsThePayload : Prop :=
  ∀ (s : State) (bytes : List Byte), s.rx.cfg.Legal →
    (bytes.length ≤ s.rx.cfg.P - 4 →
      exec (.deliver bytes) s = .next { s with rx := { s.rx with out := s.rx.out ++ [.deliver bytes] } }) ∧
    (s.rx.cfg.P - 4 < bytes.length → exec (.deliver bytes) s = .refused .notAPayload)

/-- R43, C10, log 6: a packet the channel hands to an instance is what ACKIN does at the sender and what PKTIN does at the
receiver, and is always acted on or silently dropped. -/
def Obligations.PacketIsOnPacketOfItsSide : Prop :=
  ∀ (s : State) (pkt : Packet),
    (s.tx.cfg.Legal → pkt.length = s.tx.cfg.P →
      ∃ t, exec (.packet .tx pkt) s = .next t ∧ exec (.ackin pkt) s = .next t ∧ t.rx = s.rx) ∧
    (s.rx.cfg.Legal → pkt.length = s.rx.cfg.P →
      ∃ t, exec (.packet .rx pkt) s = .next t ∧ exec (.pktin pkt) s = .next t ∧ t.tx = s.tx)

/-! ## Reset -/

/-- R91: what reset leaves in every state element whose value the spec gives. -/
def Obligations.ResetLeavesTheStatedValues : Prop :=
  State.reset.tx.nextSeq = 0#8 ∧ State.reset.tx.lastAck = 126#8 ∧
    State.reset.tx.lastAck.toNat = State.reset.tx.cfg.M - 1 ∧ State.reset.tx.bufferQueue = [] ∧
    State.reset.tx.windowQueue = [] ∧ State.reset.rx.expectedSeq = 0#8 ∧ State.reset.tx.tmrArmed = false ∧
    State.reset.tx.cfg.P = 64 ∧ State.reset.tx.cfg.S = 128 ∧ State.reset.tx.cfg.W = 15 ∧
    State.reset.rx.cfg = State.reset.tx.cfg ∧ State.reset.tx.out = [] ∧ State.reset.rx.out = []

/-- R90: RESET puts one instance at R91's values, keeps its configuration, emits nothing, and touches neither the other
instance nor the environment. (`tmrDeadline`, which the spec leaves unspecified, is not named here.) -/
def Obligations.ResetTouchesOneInstance : Prop :=
  ∀ (s : State) (e : Event) (rest : List Event), s.events = e :: rest →
    (e.input = .reset .tx → s.tx.cfg.Legal →
      ∃ deadline, step s = .next { s with
        tx := { s.tx with
          nextSeq := 0#8, lastAck := BitVec.ofNat 8 (s.tx.cfg.M - 1), bufferQueue := [], windowQueue := [],
          tmrArmed := false, tmrDeadline := deadline }
        now := s.now + e.delay
        events := rest }) ∧
    (e.input = .reset .rx → s.rx.cfg.Legal →
      step s = .next { s with rx := { s.rx with expectedSeq := 0#8 }, now := s.now + e.delay, events := rest })

/-! ## A step -/

/-- R36, R46, R82: where the presented bytes decode to an operation that is well formed, the step is that operation at the
state in which the event has been taken and its time has come. -/
def Obligations.StepRunsTheDecodedOperation : Prop :=
  ∀ (s : State) (e : Event) (rest : List Event) (sd : Side) (port : Port) (bytes : List Byte) (i : Instr),
    s.events = e :: rest → e.input = .present sd port bytes →
    decodeEvent sd port (s.cfgOf sd).P bytes = .ok i → i.wf s.cfgOf = true →
    step s = exec i { s with events := rest, now := s.now + e.delay }

/-- R82, R102 (log 9): without an event the core does nothing, and no event, however presented, makes it fault. -/
def Obligations.CoreDoesNothingOnItsOwn : Prop :=
  (∀ s : State, s.events = [] → step s = .next s) ∧ ∀ (s : State) (f : Fault), step s ≠ .fault f

/-- R46: a code that is in neither table selects no operation; the core refuses it. -/
def Obligations.UnknownCodeIsRefused : Prop :=
  ∀ (s : State) (e : Event) (rest : List Event) (sd : Side) (opc : Byte) (operand : List Byte),
    s.events = e :: rest → e.input = .present sd .cmd (opc :: operand) →
    opc.toNat ∉ [0x10, 0x11, 0x12, 0x20, 0x30, 0x31, 0x32, 0x33, 0x40, 0x50, 0x51, 0x52, 0x53, 0x80, 0x81] →
    step s = .refused (.undecodable (.unknownCode opc))

/-- R80: every operation is total. Under legal configurations every well-formed operation ends in a next state; EXPIRE where
it is enabled (R77), SUBMIT and FRAGMENT always while `BUF_DEPTH` is unbounded (U6). ENCODE at the receiver is among
them by log 22's choice. -/
def Obligations.EveryOperationIsTotal : Prop :=
  ∀ (s : State) (i : Instr), Configured s → s.tx.cfg.bufDepth = none → i.wf s.cfgOf = true →
    (i = .expire → s.tx.tmrArmed = true ∧ s.timing = .untimed) → ∃ t, exec i s = .next t

/-- R10, U10: an operation of an instance whose configuration is illegal is refused, whatever the operation. -/
def Obligations.IllegalConfigurationIsRefused : Prop :=
  ∀ (s : State) (i : Instr), ¬ (s.cfgOf i.side).Legal → exec i s = .refused .illegalConfiguration

/-- R27, U8, U9: under a legal configuration an operand that is not exactly `P` bytes is no packet, and ENCODE outside its
preconditions is refused (at the receiver, where log 22 lets it run, as at the sender). -/
def Obligations.WrongSizedOperandIsRefused : Prop :=
  ∀ (s : State) (pkt : Packet),
    (s.tx.cfg.Legal → pkt.length ≠ s.tx.cfg.P →
      exec (.ackin pkt) s = .refused .notAPacket ∧ exec (.cksum .tx pkt) s = .refused .notAPacket ∧
      exec (.verify .tx pkt) s = .refused .notAPacket ∧ exec (.xmit .tx pkt) s = .refused .notAPacket ∧
      exec (.packet .tx pkt) s = .refused .notAPacket) ∧
    (s.rx.cfg.Legal → pkt.length ≠ s.rx.cfg.P →
      exec (.pktin pkt) s = .refused .notAPacket ∧ exec (.cksum .rx pkt) s = .refused .notAPacket ∧
      exec (.verify .rx pkt) s = .refused .notAPacket ∧ exec (.xmit .rx pkt) s = .refused .notAPacket ∧
      exec (.packet .rx pkt) s = .refused .notAPacket) ∧
    (∀ (sd : Side) (len seq : Byte) (pay : List Byte), (s.cfgOf sd).Legal →
      len.toNat > (s.cfgOf sd).P - 4 ∨ pay.length ≠ len.toNat →
      exec (.encode sd len seq pay) s = .refused .notEncodable)

/-! ## Encoding -/

/-- R41, R46, R47 (log 5, log 22): an event the encoder writes for a well-formed operation, presented to the operation's instance and
port, decodes to that operation, with every operand at every value its format admits. -/
def Obligations.DecodeInvertsEncode : Prop :=
  ∀ (cfg : Side → Cfg) (i : Instr), i.wf cfg = true →
    decodeEvent i.side i.port (cfg i.side).P (encode i) = .ok i

/-- R46, R47 (log 5, log 22): an operation has one event only. Whatever bytes decode to an operation are the bytes the encoder writes
for it, presented where it belongs. -/
def Obligations.EncodeInvertsDecode : Prop :=
  ∀ (sd : Side) (port : Port) (P : Nat) (bytes : List Byte) (i : Instr), decodeEvent sd port P bytes = .ok i →
    encode i = bytes ∧ i.side = sd ∧ i.port = port

/-- R46: words written out from the table of operation codes decode to the operations they stand for. -/
def Obligations.TableWordsDecode : Prop :=
  decodeTableWord 8 0x31 = some .admitFromBuffer ∧ decodeTableWord 8 0x33 = some .timeout ∧
    decodeTableWord 8 0x51 = some .cancel ∧ decodeTableWord 8 0x52 = some .query ∧
    decodeTableWord 8 0x53 = some .expire ∧ decodeTableWord 8 0x30 = some (.submit []) ∧
    decodeEvent .tx .cmd 6 [0x10#8, 1#8, 2#8, 3#8, 4#8, 5#8, 6#8] =
      .ok (.cksum .tx [1#8, 2#8, 3#8, 4#8, 5#8, 6#8]) ∧
    decodeEvent .rx .cmd 6 [0x40#8, 1#8, 2#8, 3#8, 4#8, 5#8, 6#8] = .ok (.pktin [1#8, 2#8, 3#8, 4#8, 5#8, 6#8]) ∧
    decodeEvent .rx .cmd 6 [0x81#8, 2#8, 7#8, 9#8] = .ok (.deliver [7#8, 9#8]) ∧ decodeTableWord 8 0x34 = none

/-! ## Invariants and isolation -/

/-- R17 (INV-W): `windowQueue.len <= W` at reset, and every step keeps it. -/
def Obligations.WindowNeverExceedsCapacity : Prop :=
  WindowBounded State.reset.tx ∧ ∀ s t : State, WindowBounded s.tx → step s = .next t → WindowBounded t.tx

/-- R25 (INV-W, INV-R, INV-P), whatever the environment presents: every step keeps legal configurations, the window bound,
registers in the sequence space (`lastAck` by the spec's decision D4), and queues of well-formed packets with zero padding. -/
def Obligations.StepKeepsSoundness : Prop :=
  ∀ s t : State, Sound s → step s = .next t → Sound t

/-- R25 (INV-A): the window is full or the buffer empty. Every step keeps it but one that selects FRAGMENT alone, which the
core itself never leaves without ADMIT (log 2). -/
def Obligations.StepKeepsSettled : Prop :=
  ∀ s t : State, WindowBounded s.tx → Settled s.tx → (∀ msg, selected s ≠ some (.fragment msg)) → step s = .next t →
    Settled t.tx

/-- R25 (INV-S, INV-F) under E-ACK (R96; log 19): the outstanding packets stay numbered from `lastAck +M 1` on without a gap,
and `nextSeq` continues them. -/
def Obligations.StepKeepsNumbering : Prop :=
  ∀ s t : State, Sound s → Numbered s.tx → (∀ i, selected s = some i → AcksHonest s.tx i) → step s = .next t →
    Numbered t.tx

/-- R25: the inductive form of the numbering gives INV-S and INV-F as the rule words them. -/
def Obligations.NumberingGivesConsecutiveFront : Prop :=
  ∀ t : Sender, t.cfg.Legal → SequencesInRange t → Numbered t → Consecutive t ∧ FrontFollowsLastAck t

/-- R25, R78, R91, R92: the reset state has every invariant, is paired, and its sender is quiescent. -/
def Obligations.ResetHasEveryInvariant : Prop :=
  Sound State.reset ∧ Settled State.reset.tx ∧ Numbered State.reset.tx ∧ TimerCovers State.reset.tx ∧
    Paired State.reset ∧ SenderQuiescent State.reset.tx

/-- R100: in a quiescent sender EXPIRE is not enabled (log 11), and ADMIT, TIMEOUT and CANCEL change nothing (of the deadline
this is DEDUCED, log 10). -/
def Obligations.QuiescentSenderStaysQuiet : Prop :=
  ∀ s : State, s.tx.cfg.Legal → SenderQuiescent s.tx →
    exec .expire s = .refused .expireNotEnabled ∧ exec .timeout s = .next s ∧ exec .admitFromBuffer s = .next s ∧
      exec .cancel s = .next s

/-- R9, R21: no step writes a configuration constant; nor does one write the treatment of time, and time never runs backwards
(R79). -/
def Obligations.ConfigurationIsNeverWritten : Prop :=
  ∀ s t : State, step s = .next t →
    t.tx.cfg = s.tx.cfg ∧ t.rx.cfg = s.rx.cfg ∧ t.timing = s.timing ∧ s.now ≤ t.now

/-- R24: the two instances share no state. An operation of one leaves the other as it is, leaves the environment's time,
treatment and events as they are, and does the same whatever the other's state. -/
def Obligations.InstancesShareNoState : Prop :=
  ∀ (s t : State) (i : Instr), exec i s = .next t →
    t.now = s.now ∧ t.timing = s.timing ∧ t.events = s.events ∧
    (i.side = .tx → t.rx = s.rx ∧ ∀ rx', exec i { s with rx := rx' } = .next { t with rx := rx' }) ∧
    (i.side = .rx → t.tx = s.tx ∧ ∀ tx', exec i { s with tx := tx' } = .next { t with tx := tx' })

/-- R36: operations of different instances commute. -/
def Obligations.OperationsOfTwoInstancesCommute : Prop :=
  ∀ (s a b : State) (i j : Instr), i.side = .tx → j.side = .rx → exec i s = .next a → exec j s = .next b →
    ∃ t, exec j a = .next t ∧ exec i b = .next t

/-- R12: `nextSeq` starts at 0; FRAGMENT, alone or in SUBMIT, advances it by one modulo `M` for every packet it creates; no
other operation changes it; it stays in `0..M-1`. -/
def Obligations.NextSeqIsAdvancedOnlyByFragmentation : Prop :=
  State.reset.tx.nextSeq = 0#8 ∧
  ∀ (s t : State) (i : Instr), s.tx.nextSeq.toNat < s.tx.cfg.M → exec i s = .next t →
    t.tx.nextSeq.toNat < s.tx.cfg.M ∧
    (∀ msg, i = .fragment msg ∨ i = .submit msg →
      t.tx.nextSeq.toNat =
        (s.tx.nextSeq.toNat + (msg.length + s.tx.cfg.maxPay - 1) / s.tx.cfg.maxPay) % s.tx.cfg.M) ∧
    ((∀ msg, i ≠ .fragment msg ∧ i ≠ .submit msg) → t.tx.nextSeq = s.tx.nextSeq)

/-- R13: `lastAck` starts at `M - 1`; an operation that changes it is an acknowledgment (ACKIN, or the channel's packet at the
sender), which passed VERIFY and whose sequence byte it then holds; it stays in `0..M-1`. The sentinel is the spec's decision D3, and
the range check that keeps it in range is D4. -/
def Obligations.LastAckIsWrittenOnlyByAcknowledgments : Prop :=
  State.reset.tx.lastAck.toNat = State.reset.tx.cfg.M - 1 ∧
  ∀ (s t : State) (i : Instr), s.tx.lastAck.toNat < s.tx.cfg.M → exec i s = .next t →
    t.tx.lastAck.toNat < s.tx.cfg.M ∧
    (t.tx.lastAck ≠ s.tx.lastAck →
      ∃ pkt, (i = .ackin pkt ∨ i = .packet .tx pkt) ∧ verify pkt = true ∧ t.tx.lastAck = byteAt pkt 1)

/-- R14: `expectedSeq` starts at 0; it changes only when PKTIN (or the channel's packet at the receiver) accepts a packet, by
one modulo `M`, so that it wraps from `S-2` to 0; it stays in `0..M-1`. -/
def Obligations.ExpectedSeqAdvancesPerAcceptedPacket : Prop :=
  State.reset.rx.expectedSeq = 0#8 ∧
  ∀ (s t : State) (i : Instr), s.rx.expectedSeq.toNat < s.rx.cfg.M → exec i s = .next t →
    t.rx.expectedSeq.toNat < s.rx.cfg.M ∧
    (t.rx.expectedSeq ≠ s.rx.expectedSeq →
      ∃ pkt, (i = .pktin pkt ∨ i = .packet .rx pkt) ∧
        t.rx.out = s.rx.out ++ [.deliver (payOf pkt), .xmit pkt] ∧
        t.rx.expectedSeq.toNat = (if s.rx.expectedSeq.toNat = s.rx.cfg.S - 2 then 0 else s.rx.expectedSeq.toNat + 1)) ∧
    (∀ pkt, i = .pktin pkt → t.rx.out ≠ s.rx.out → t.rx.expectedSeq ≠ s.rx.expectedSeq)

/-! ## Eventual delivery -/

/-- R93 (eventual delivery), R95, R96, R98, R100 (log 21): when `2W < M` and the receiver has accepted some but not the newest
of the window's packets, or none, rounds of recovery, as many as there are outstanding packets, complete: every outstanding
packet not yet accepted is delivered exactly once and in order, none is outstanding any more, and both ends agree with
`nextSeq`. -/
def Obligations.RecoveryDeliversEverything : Prop :=
  ∀ (s : State) (accepted : Nat), Sound s → Settled s.tx → Numbered s.tx → TimerCovers s.tx → s.rx.cfg = s.tx.cfg →
    2 * s.tx.cfg.W < s.tx.cfg.M → HasAccepted s accepted → NewestNotYetAccepted s accepted →
    ∃ t, recoveryRounds (outstanding s.tx).length s = .next t ∧
      outstanding t.tx = [] ∧
      delivered t.rx.out = delivered s.rx.out ++ ((outstanding s.tx).drop accepted).flatMap payOf ∧
      t.tx.nextSeq = s.tx.nextSeq ∧ t.rx.expectedSeq = s.tx.nextSeq ∧
      t.tx.lastAck.toNat = subM s.tx.cfg.M s.tx.nextSeq.toNat 1
end

