-- ==== Sys2Proof/Laws/State.lean ====
section
/-! SUPPORT. One lemma per field per update of the state, each true by `rfl`, so that no later proof unfolds a record
update. -/

namespace Sys2Proof.Machine

section SenderFields

@[simp] theorem Sender.emit_cfg (t : Sender) (o : Output) : (t.emit o).cfg = t.cfg := rfl
@[simp] theorem Sender.emit_nextSeq (t : Sender) (o : Output) : (t.emit o).nextSeq = t.nextSeq := rfl
@[simp] theorem Sender.emit_lastAck (t : Sender) (o : Output) : (t.emit o).lastAck = t.lastAck := rfl
@[simp] theorem Sender.emit_bufferQueue (t : Sender) (o : Output) : (t.emit o).bufferQueue = t.bufferQueue := rfl
@[simp] theorem Sender.emit_windowQueue (t : Sender) (o : Output) : (t.emit o).windowQueue = t.windowQueue := rfl
@[simp] theorem Sender.emit_tmrArmed (t : Sender) (o : Output) : (t.emit o).tmrArmed = t.tmrArmed := rfl
@[simp] theorem Sender.emit_tmrDeadline (t : Sender) (o : Output) : (t.emit o).tmrDeadline = t.tmrDeadline := rfl
@[simp] theorem Sender.emit_out (t : Sender) (o : Output) : (t.emit o).out = t.out ++ [o] := rfl
@[simp] theorem Sender.emit_result (t : Sender) (o : Output) : (t.emit o).result = t.result := rfl

@[simp] theorem Sender.arm_cfg (t : Sender) (now d : Time) : (t.arm now d).cfg = t.cfg := rfl
@[simp] theorem Sender.arm_nextSeq (t : Sender) (now d : Time) : (t.arm now d).nextSeq = t.nextSeq := rfl
@[simp] theorem Sender.arm_lastAck (t : Sender) (now d : Time) : (t.arm now d).lastAck = t.lastAck := rfl
@[simp] theorem Sender.arm_bufferQueue (t : Sender) (now d : Time) : (t.arm now d).bufferQueue = t.bufferQueue := rfl
@[simp] theorem Sender.arm_windowQueue (t : Sender) (now d : Time) : (t.arm now d).windowQueue = t.windowQueue := rfl
@[simp] theorem Sender.arm_tmrArmed (t : Sender) (now d : Time) : (t.arm now d).tmrArmed = true := rfl
@[simp] theorem Sender.arm_tmrDeadline (t : Sender) (now d : Time) : (t.arm now d).tmrDeadline = now + d := rfl
@[simp] theorem Sender.arm_out (t : Sender) (now d : Time) : (t.arm now d).out = t.out := rfl
@[simp] theorem Sender.arm_result (t : Sender) (now d : Time) : (t.arm now d).result = t.result := rfl

@[simp] theorem Sender.cancel_cfg (t : Sender) : t.cancel.cfg = t.cfg := rfl
@[simp] theorem Sender.cancel_nextSeq (t : Sender) : t.cancel.nextSeq = t.nextSeq := rfl
@[simp] theorem Sender.cancel_lastAck (t : Sender) : t.cancel.lastAck = t.lastAck := rfl
@[simp] theorem Sender.cancel_bufferQueue (t : Sender) : t.cancel.bufferQueue = t.bufferQueue := rfl
@[simp] theorem Sender.cancel_windowQueue (t : Sender) : t.cancel.windowQueue = t.windowQueue := rfl
@[simp] theorem Sender.cancel_tmrArmed (t : Sender) : t.cancel.tmrArmed = false := rfl
@[simp] theorem Sender.cancel_tmrDeadline (t : Sender) : t.cancel.tmrDeadline = t.tmrDeadline := rfl
@[simp] theorem Sender.cancel_out (t : Sender) : t.cancel.out = t.out := rfl
@[simp] theorem Sender.cancel_result (t : Sender) : t.cancel.result = t.result := rfl

@[simp] theorem Sender.pushChunk_cfg (t : Sender) (chunk : List Byte) : (t.pushChunk chunk).cfg = t.cfg := rfl
@[simp] theorem Sender.pushChunk_nextSeq (t : Sender) (chunk : List Byte) : (t.pushChunk chunk).nextSeq = nextInSpace t.cfg t.nextSeq := rfl
@[simp] theorem Sender.pushChunk_lastAck (t : Sender) (chunk : List Byte) : (t.pushChunk chunk).lastAck = t.lastAck := rfl
@[simp] theorem Sender.pushChunk_bufferQueue (t : Sender) (chunk : List Byte) : (t.pushChunk chunk).bufferQueue =
      t.bufferQueue ++ [encodePacket t.cfg.P (BitVec.ofNat 8 chunk.length) t.nextSeq chunk] := rfl
@[simp] theorem Sender.pushChunk_windowQueue (t : Sender) (chunk : List Byte) : (t.pushChunk chunk).windowQueue = t.windowQueue := rfl
@[simp] theorem Sender.pushChunk_tmrArmed (t : Sender) (chunk : List Byte) : (t.pushChunk chunk).tmrArmed = t.tmrArmed := rfl
@[simp] theorem Sender.pushChunk_tmrDeadline (t : Sender) (chunk : List Byte) : (t.pushChunk chunk).tmrDeadline = t.tmrDeadline := rfl
@[simp] theorem Sender.pushChunk_out (t : Sender) (chunk : List Byte) : (t.pushChunk chunk).out = t.out := rfl
@[simp] theorem Sender.pushChunk_result (t : Sender) (chunk : List Byte) : (t.pushChunk chunk).result = t.result := rfl

@[simp] theorem Sender.acknowledge_cfg (t : Sender) (ack : Byte) (gap : Nat) : (t.acknowledge ack gap).cfg = t.cfg := rfl
@[simp] theorem Sender.acknowledge_nextSeq (t : Sender) (ack : Byte) (gap : Nat) : (t.acknowledge ack gap).nextSeq = t.nextSeq := rfl
@[simp] theorem Sender.acknowledge_lastAck (t : Sender) (ack : Byte) (gap : Nat) : (t.acknowledge ack gap).lastAck = ack := rfl
@[simp] theorem Sender.acknowledge_bufferQueue (t : Sender) (ack : Byte) (gap : Nat) : (t.acknowledge ack gap).bufferQueue = t.bufferQueue := rfl
@[simp] theorem Sender.acknowledge_windowQueue (t : Sender) (ack : Byte) (gap : Nat) : (t.acknowledge ack gap).windowQueue =
      t.windowQueue.filter fun q => !acknowledged t.cfg.M t.lastAck.toNat gap q := rfl
@[simp] theorem Sender.acknowledge_tmrArmed (t : Sender) (ack : Byte) (gap : Nat) : (t.acknowledge ack gap).tmrArmed = t.tmrArmed := rfl
@[simp] theorem Sender.acknowledge_tmrDeadline (t : Sender) (ack : Byte) (gap : Nat) : (t.acknowledge ack gap).tmrDeadline = t.tmrDeadline := rfl
@[simp] theorem Sender.acknowledge_out (t : Sender) (ack : Byte) (gap : Nat) : (t.acknowledge ack gap).out = t.out := rfl
@[simp] theorem Sender.acknowledge_result (t : Sender) (ack : Byte) (gap : Nat) : (t.acknowledge ack gap).result = t.result := rfl

@[simp] theorem Sender.reset_cfg (t : Sender) : t.reset.cfg = t.cfg := rfl
@[simp] theorem Sender.reset_nextSeq (t : Sender) : t.reset.nextSeq = 0#8 := rfl
@[simp] theorem Sender.reset_lastAck (t : Sender) : t.reset.lastAck = BitVec.ofNat 8 (t.cfg.M - 1) := rfl
@[simp] theorem Sender.reset_bufferQueue (t : Sender) : t.reset.bufferQueue = [] := rfl
@[simp] theorem Sender.reset_windowQueue (t : Sender) : t.reset.windowQueue = [] := rfl
@[simp] theorem Sender.reset_tmrArmed (t : Sender) : t.reset.tmrArmed = false := rfl
@[simp] theorem Sender.reset_tmrDeadline (t : Sender) : t.reset.tmrDeadline = 0 := rfl
@[simp] theorem Sender.reset_out (t : Sender) : t.reset.out = t.out := rfl
@[simp] theorem Sender.reset_result (t : Sender) : t.reset.result = t.result := rfl

end SenderFields

section ReceiverFields

@[simp] theorem Receiver.emit_cfg (r : Receiver) (o : Output) : (r.emit o).cfg = r.cfg := rfl
@[simp] theorem Receiver.emit_expectedSeq (r : Receiver) (o : Output) : (r.emit o).expectedSeq = r.expectedSeq := rfl
@[simp] theorem Receiver.emit_out (r : Receiver) (o : Output) : (r.emit o).out = r.out ++ [o] := rfl
@[simp] theorem Receiver.emit_result (r : Receiver) (o : Output) : (r.emit o).result = r.result := rfl

@[simp] theorem Receiver.reset_cfg (r : Receiver) : r.reset.cfg = r.cfg := rfl
@[simp] theorem Receiver.reset_expectedSeq (r : Receiver) : r.reset.expectedSeq = 0#8 := rfl
@[simp] theorem Receiver.reset_out (r : Receiver) : r.reset.out = r.out := rfl
@[simp] theorem Receiver.reset_result (r : Receiver) : r.reset.result = r.result := rfl

end ReceiverFields

section MachineFields

@[simp] theorem State.answer_tx_tx (s : State) (v : Result) : (s.answer v .tx).tx = { s.tx with result := v } := rfl
@[simp] theorem State.answer_tx_rx (s : State) (v : Result) : (s.answer v .tx).rx = s.rx := rfl
@[simp] theorem State.answer_tx_now (s : State) (v : Result) : (s.answer v .tx).now = s.now := rfl
@[simp] theorem State.answer_tx_timing (s : State) (v : Result) : (s.answer v .tx).timing = s.timing := rfl
@[simp] theorem State.answer_tx_events (s : State) (v : Result) : (s.answer v .tx).events = s.events := rfl
@[simp] theorem State.answer_rx_tx (s : State) (v : Result) : (s.answer v .rx).tx = s.tx := rfl
@[simp] theorem State.answer_rx_rx (s : State) (v : Result) : (s.answer v .rx).rx = { s.rx with result := v } := rfl
@[simp] theorem State.answer_rx_now (s : State) (v : Result) : (s.answer v .rx).now = s.now := rfl
@[simp] theorem State.answer_rx_timing (s : State) (v : Result) : (s.answer v .rx).timing = s.timing := rfl
@[simp] theorem State.answer_rx_events (s : State) (v : Result) : (s.answer v .rx).events = s.events := rfl

@[simp] theorem State.emitAt_tx_tx (s : State) (o : Output) : (s.emitAt o .tx).tx = s.tx.emit o := rfl
@[simp] theorem State.emitAt_tx_rx (s : State) (o : Output) : (s.emitAt o .tx).rx = s.rx := rfl
@[simp] theorem State.emitAt_tx_now (s : State) (o : Output) : (s.emitAt o .tx).now = s.now := rfl
@[simp] theorem State.emitAt_tx_timing (s : State) (o : Output) : (s.emitAt o .tx).timing = s.timing := rfl
@[simp] theorem State.emitAt_tx_events (s : State) (o : Output) : (s.emitAt o .tx).events = s.events := rfl
@[simp] theorem State.emitAt_rx_tx (s : State) (o : Output) : (s.emitAt o .rx).tx = s.tx := rfl
@[simp] theorem State.emitAt_rx_rx (s : State) (o : Output) : (s.emitAt o .rx).rx = s.rx.emit o := rfl
@[simp] theorem State.emitAt_rx_now (s : State) (o : Output) : (s.emitAt o .rx).now = s.now := rfl
@[simp] theorem State.emitAt_rx_timing (s : State) (o : Output) : (s.emitAt o .rx).timing = s.timing := rfl
@[simp] theorem State.emitAt_rx_events (s : State) (o : Output) : (s.emitAt o .rx).events = s.events := rfl

@[simp] theorem State.receive_tx_tx (s : State) (pkt : Packet) : (s.receive pkt .tx).tx = s.tx.onAck s.now pkt := rfl
@[simp] theorem State.receive_tx_rx (s : State) (pkt : Packet) : (s.receive pkt .tx).rx = s.rx := rfl
@[simp] theorem State.receive_tx_now (s : State) (pkt : Packet) : (s.receive pkt .tx).now = s.now := rfl
@[simp] theorem State.receive_tx_timing (s : State) (pkt : Packet) : (s.receive pkt .tx).timing = s.timing := rfl
@[simp] theorem State.receive_tx_events (s : State) (pkt : Packet) : (s.receive pkt .tx).events = s.events := rfl
@[simp] theorem State.receive_rx_tx (s : State) (pkt : Packet) : (s.receive pkt .rx).tx = s.tx := rfl
@[simp] theorem State.receive_rx_rx (s : State) (pkt : Packet) : (s.receive pkt .rx).rx = s.rx.onPacket pkt := rfl
@[simp] theorem State.receive_rx_now (s : State) (pkt : Packet) : (s.receive pkt .rx).now = s.now := rfl
@[simp] theorem State.receive_rx_timing (s : State) (pkt : Packet) : (s.receive pkt .rx).timing = s.timing := rfl
@[simp] theorem State.receive_rx_events (s : State) (pkt : Packet) : (s.receive pkt .rx).events = s.events := rfl

@[simp] theorem State.resetAt_tx_tx (s : State) : (s.resetAt .tx).tx = s.tx.reset := rfl
@[simp] theorem State.resetAt_tx_rx (s : State) : (s.resetAt .tx).rx = s.rx := rfl
@[simp] theorem State.resetAt_tx_now (s : State) : (s.resetAt .tx).now = s.now := rfl
@[simp] theorem State.resetAt_tx_timing (s : State) : (s.resetAt .tx).timing = s.timing := rfl
@[simp] theorem State.resetAt_tx_events (s : State) : (s.resetAt .tx).events = s.events := rfl
@[simp] theorem State.resetAt_rx_tx (s : State) : (s.resetAt .rx).tx = s.tx := rfl
@[simp] theorem State.resetAt_rx_rx (s : State) : (s.resetAt .rx).rx = s.rx.reset := rfl
@[simp] theorem State.resetAt_rx_now (s : State) : (s.resetAt .rx).now = s.now := rfl
@[simp] theorem State.resetAt_rx_timing (s : State) : (s.resetAt .rx).timing = s.timing := rfl
@[simp] theorem State.resetAt_rx_events (s : State) : (s.resetAt .rx).events = s.events := rfl

@[simp] theorem State.take_tx (s : State) (e : Event) (rest : List Event) : (s.take e rest).tx = s.tx := rfl
@[simp] theorem State.take_rx (s : State) (e : Event) (rest : List Event) : (s.take e rest).rx = s.rx := rfl
@[simp] theorem State.take_now (s : State) (e : Event) (rest : List Event) : (s.take e rest).now = s.now + e.delay := rfl
@[simp] theorem State.take_timing (s : State) (e : Event) (rest : List Event) : (s.take e rest).timing = s.timing := rfl
@[simp] theorem State.take_events (s : State) (e : Event) (rest : List Event) : (s.take e rest).events = rest := rfl

@[simp] theorem State.cfgOf_tx (s : State) : s.cfgOf .tx = s.tx.cfg := rfl
@[simp] theorem State.cfgOf_rx (s : State) : s.cfgOf .rx = s.rx.cfg := rfl
@[simp] theorem State.take_cfgOf (s : State) (e : Event) (rest : List Event) : (s.take e rest).cfgOf = s.cfgOf := by
  funext sd; cases sd <;> rfl

end MachineFields

section Gates

/-- What passes the check on the configuration. -/
theorem whenLegal_next {c : Cfg} {k : Outcome} {t : State} :
    whenLegal c k = .next t ↔ c.Legal ∧ k = .next t := by
  by_cases h : c.Legal
  · rw [whenLegal, if_pos h]; exact ⟨fun e => ⟨h, e⟩, fun e => e.2⟩
  · rw [whenLegal, if_neg h]; exact ⟨nofun, fun e => absurd e.1 h⟩

/-- What passes the check on a packet operand. -/
theorem whenPacket_next {c : Cfg} {pkt : Packet} {k : Outcome} {t : State} :
    whenPacket c pkt k = .next t ↔ c.Legal ∧ pkt.length = c.P ∧ k = .next t := by
  unfold whenPacket wfPacket; rw [whenLegal_next]; split <;> simp_all

/-- What passes the check on the room in `bufferQueue`. -/
theorem whenRoom_next {t : Sender} {msg : List Byte} {k : Outcome} {u : State} :
    whenRoom t msg k = .next u ↔ t.cfg.Legal ∧ roomFor t msg.length = true ∧ k = .next u := by
  unfold whenRoom; rw [whenLegal_next]; split <;> simp_all

theorem whenLegal_pos {c : Cfg} (h : c.Legal) (k : Outcome) : whenLegal c k = k := if_pos h

theorem whenPacket_pos {c : Cfg} {pkt : Packet} (h : c.Legal) (hp : pkt.length = c.P) (k : Outcome) :
    whenPacket c pkt k = k := by
  rw [whenPacket, whenLegal_pos h, if_pos (by simp [wfPacket, hp])]

theorem whenRoom_pos {t : Sender} {msg : List Byte} (h : t.cfg.Legal) (hr : roomFor t msg.length = true) (k : Outcome) :
    whenRoom t msg k = k := by
  rw [whenRoom, whenLegal_pos h, if_pos hr]

end Gates

end Sys2Proof.Machine
end

