-- ==== Sys2Proof/Laws/Arith.lean ====
section
/-! SUPPORT. The sequence arithmetic of spec 42_sender_window.md R69, the bounds of a legal configuration (00_scope.md R10),
and the chunk counts of 41_fragmenter.md R58. -/

namespace Sys2Proof.Laws

open Sys2Proof.Machine Sys2Proof.Safety

section Config

/-- The bounds of R10 on the derived names. -/
theorem legal_bounds {c : Cfg} (h : c.Legal) :
    2 ≤ c.maxPay ∧ c.maxPay ≤ 254 ∧ c.P = c.maxPay + 4 ∧ c.maxPay % 2 = 0 ∧ 2 ≤ c.M ∧ c.M ≤ 256 ∧ 1 ≤ c.W ∧
      c.W < c.M := by
  obtain ⟨h1, h2, h3, h4, h5, h6, h7, h8⟩ := h
  simp only [Cfg.maxPay, Cfg.M, HDR]
  omega

end Config

section Modular

theorem addM_lt {M : Nat} (h : 0 < M) (a b : Nat) : addM M a b < M := Nat.mod_lt _ h

theorem addM_zero {M a : Nat} (h : a < M) : addM M a 0 = a := Nat.mod_eq_of_lt (by simpa using h)

theorem addM_assoc (M a i j : Nat) : addM M (addM M a i) j = addM M a (i + j) := by
  simp [addM, Nat.add_assoc]

theorem subM_lt {M : Nat} (h : 0 < M) (a b : Nat) : subM M a b < M := by
  have h1 := Int.emod_nonneg ((a : Int) - b) (by omega : (M : Int) ≠ 0)
  have h2 := Int.emod_lt_of_pos ((a : Int) - b) (by omega : (0 : Int) < M)
  simp only [subM]; omega

/-- `gap` without the mathematical `mod` (R69): `a - b`, or `a - b + M`. -/
theorem subM_eq {M a b : Nat} (ha : a < M) (hb : b < M) : subM M a b = if b ≤ a then a - b else a + M - b := by
  unfold subM
  split
  · rw [Int.emod_eq_of_lt (by omega) (by omega)]; omega
  · rw [← Int.add_emod_right, Int.emod_eq_of_lt (by omega) (by omega)]; omega

/-- Going `i` positions on and measuring the way back gives `i`. -/
theorem subM_addM {M b i : Nat} (hb : b < M) (hi : i < M) : subM M (addM M b i) b = i := by
  rw [subM_eq (addM_lt (by omega) _ _) hb]
  unfold addM
  rcases Nat.lt_or_ge (b + i) M with h | h
  · rw [Nat.mod_eq_of_lt h]; split <;> omega
  · rw [Nat.mod_eq_sub_mod h, Nat.mod_eq_of_lt (by omega)]; split <;> omega

/-- Measuring the way and going it gives the end. -/
theorem addM_subM {M a b : Nat} (ha : a < M) (hb : b < M) : addM M b (subM M a b) = a := by
  rw [subM_eq ha hb]
  unfold addM
  split
  · rw [Nat.mod_eq_of_lt (by omega)]; omega
  · rw [Nat.mod_eq_sub_mod (by omega), Nat.mod_eq_of_lt (by omega)]; omega

/-- A sequence register advanced by one holds `(x + 1) mod M` (R12, R14). -/
theorem nextInSpace_toNat {c : Cfg} (h : c.Legal) (x : Byte) : (nextInSpace c x).toNat = addM c.M x.toNat 1 := by
  have hb := legal_bounds h
  have := addM_lt (M := c.M) (by omega) x.toNat 1
  simp only [nextInSpace, BitVec.toNat_ofNat]
  exact Nat.mod_eq_of_lt (by omega)

end Modular

section Chunks

theorem chunkCount_zero {c : Cfg} (h : c.Legal) : chunkCount c 0 = 0 := by
  have hb := legal_bounds h
  exact Nat.div_eq_of_lt (by omega)

/-- One chunk more than the rest of the message needs (R57). -/
theorem chunkCount_pos {c : Cfg} (h : c.Legal) {n : Nat} (hn : 0 < n) :
    chunkCount c n = chunkCount c (n - c.maxPay) + 1 := by
  have hb := legal_bounds h
  unfold chunkCount
  rcases Nat.lt_or_ge c.maxPay n with hlt | hge
  · rw [show n + c.maxPay - 1 = (n - c.maxPay + c.maxPay - 1) + c.maxPay by omega, Nat.add_div_right _ (by omega)]
  · rw [show n - c.maxPay = 0 by omega, Nat.div_eq_of_lt (a := 0 + c.maxPay - 1) (by omega),
      show n + c.maxPay - 1 = (n - 1) + c.maxPay by omega, Nat.add_div_right _ (by omega),
      Nat.div_eq_of_lt (by omega)]

theorem chunk_zero (c : Cfg) (msg : List Byte) : chunk c msg 0 = msg.take c.maxPay := by simp [chunk]

theorem chunk_succ (c : Cfg) (msg : List Byte) (j : Nat) : chunk c (msg.drop c.maxPay) j = chunk c msg (j + 1) := by
  simp [chunk, Nat.succ_mul, Nat.add_comm]

theorem chunk_length_le (c : Cfg) (msg : List Byte) (j : Nat) : (chunk c msg j).length ≤ c.maxPay := by
  simp only [chunk, List.length_take]; omega

theorem packetOf_succ (c : Cfg) (s0 : Nat) (msg : List Byte) (j : Nat) :
    packetOf c (addM c.M s0 1) (msg.drop c.maxPay) j = packetOf c s0 msg (j + 1) := by
  simp only [packetOf, chunk_succ, addM_assoc, Nat.add_comm 1 j]

theorem packetsOf_nil {c : Cfg} (h : c.Legal) (s0 : Nat) : packetsOf c s0 [] = [] := by
  simp [packetsOf, chunkCount_zero h]

/-- The packets of a message: the first chunk's, then those of the rest of the message (R57). -/
theorem packetsOf_cons {c : Cfg} (h : c.Legal) (s0 : Nat) {msg : List Byte} (hm : msg ≠ []) :
    packetsOf c s0 msg = packetOf c s0 msg 0 :: packetsOf c (addM c.M s0 1) (msg.drop c.maxPay) := by
  have hn : 0 < msg.length := List.length_pos_iff.mpr hm
  simp only [packetsOf, chunkCount_pos h hn, List.range_succ_eq_map, List.map_cons, List.map_map, List.length_drop]
  congr 1
  exact List.map_congr_left fun j _ => (packetOf_succ c s0 msg j).symm

@[simp] theorem packetsOf_length (c : Cfg) (s0 : Nat) (msg : List Byte) :
    (packetsOf c s0 msg).length = chunkCount c msg.length := by simp [packetsOf]

end Chunks

end Sys2Proof.Laws
end

