-- ==== Sys2Proof/Laws/Decode.lean ====
section
/-! SUPPORT. The parts of an event's bytes read back what the encoder writes, whatever follows (spec 30_encoding.md R46;
log 5). -/

namespace Sys2Proof.Laws

open Sys2Proof

/-- A length or a duration reads back. -/
theorem readNat_writeNatFuel : ∀ (fuel n : Nat) (rest : List Byte), n ≤ fuel →
    readNat (writeNatFuel fuel n ++ rest) = .ok (n, rest) := by
  intro fuel
  induction fuel with
  | zero =>
    intro n rest h
    obtain rfl : n = 0 := by omega
    rfl
  | succ fuel ih =>
    intro n rest h
    unfold writeNatFuel
    split
    · rename_i hn
      have : (BitVec.ofNat 8 n).toNat = n := by simp; omega
      simp [readNat, this, hn]
    · rename_i hn
      have hb : (BitVec.ofNat 8 (n % 128 + 128)).toNat = n % 128 + 128 := by simp; omega
      have hd : n / 128 ≠ 0 := by omega
      have hs : n % 128 + 128 * (n / 128) = n := Nat.mod_add_div n 128
      simp [readNat, hb, ih (n / 128) rest (by omega), hd, hs]

theorem readNat_writeNat (n : Nat) (rest : List Byte) : readNat (writeNat n ++ rest) = .ok (n, rest) :=
  readNat_writeNatFuel n n rest le_rfl

/-- A run of bytes reads back. -/
theorem readBytes_append (bytes rest : List Byte) : readBytes bytes.length (bytes ++ rest) = .ok (bytes, rest) := by
  simp [readBytes]

/-- A packet reads back (format K). -/
theorem readPacket_append {P : Nat} {pkt : Packet} (h : pkt.length = P) (mk : Packet → Instr) (rest : List Byte) :
    readPacket P mk (pkt ++ rest) = .ok (mk pkt, rest) := by
  subst h; simp [readPacket, readBytes_append]

/-- A byte string reads back (format B). -/
theorem readString_writeString (mk : List Byte → Instr) (msg rest : List Byte) :
    readString mk (writeString msg ++ rest) = .ok (mk msg, rest) := by
  simp [readString, writeString, readNat_writeNat, readBytes_append]

/-- What a run of bytes was read from. -/
theorem readBytes_ok {n : Nat} {bytes l rest : List Byte} (h : readBytes n bytes = .ok (l, rest)) :
    bytes = l ++ rest ∧ l.length = n := by
  unfold readBytes at h
  split at h
  · cases h; simp; omega
  · cases h

end Sys2Proof.Laws
end

