-- ==== Sys2Proof/Laws/Exec.lean ====
section
/-! SUPPORT. When each operation answers a next state, and which: one inversion lemma per arm of `exec`, so that no later
proof unfolds a meaning. -/

namespace Sys2Proof.Laws

open Sys2Proof.Machine

theorem next_inj {a b : State} : (Host.Outcome.next a : Outcome) = .next b ↔ b = a :=
  ⟨fun h => by cases h; rfl, fun h => by rw [h]⟩

/-- A test in front of a next state. -/
theorem ite_next {p : Prop} [Decidable p] {a b : State} {r : Refusal} :
    (if p then (Host.Outcome.next a : Outcome) else .refused r) = .next b ↔ p ∧ b = a := by
  by_cases h : p
  · rw [if_pos h, next_inj]; exact ⟨fun e => ⟨h, e⟩, fun e => e.2⟩
  · rw [if_neg h]; exact ⟨nofun, fun e => absurd e.1 h⟩

theorem exec_cksum_next {sd : Side} {pkt : Packet} {s t : State} :
    exec (.cksum sd pkt) s = .next t ↔
      (s.cfgOf sd).Legal ∧ pkt.length = (s.cfgOf sd).P ∧ t = s.answer (.cksum (cksum pkt)) sd := by
  simp only [exec, execCksum]; rw [whenPacket_next, next_inj]

theorem exec_encode_next {sd : Side} {len seq : Byte} {pay : List Byte} {s t : State} :
    exec (.encode sd len seq pay) s = .next t ↔
      (s.cfgOf sd).Legal ∧ wfEncode (s.cfgOf sd) len pay = true ∧
        t = s.answer (.packet (encodePacket (s.cfgOf sd).P len seq pay)) sd := by
  simp only [exec, execEncode]; rw [whenLegal_next, ite_next]

theorem exec_verify_next {sd : Side} {pkt : Packet} {s t : State} :
    exec (.verify sd pkt) s = .next t ↔
      (s.cfgOf sd).Legal ∧ pkt.length = (s.cfgOf sd).P ∧ t = s.answer (.bit (verify pkt)) sd := by
  simp only [exec, execVerify]; rw [whenPacket_next, next_inj]

theorem exec_fragment_next {msg : List Byte} {s t : State} :
    exec (.fragment msg) s = .next t ↔
      s.tx.cfg.Legal ∧ roomFor s.tx msg.length = true ∧ t = { s with tx := s.tx.fragment msg } := by
  simp only [exec, execFragment]; rw [whenRoom_next, next_inj]

theorem exec_submit_next {msg : List Byte} {s t : State} :
    exec (.submit msg) s = .next t ↔
      s.tx.cfg.Legal ∧ roomFor s.tx msg.length = true ∧ t = { s with tx := s.tx.submit s.now msg } := by
  simp only [exec, execSubmit]; rw [whenRoom_next, next_inj]

theorem exec_admit_next {s t : State} :
    exec .admitFromBuffer s = .next t ↔ s.tx.cfg.Legal ∧ t = { s with tx := s.tx.admitFromBuffer s.now } := by
  simp only [exec, execAdmit]; rw [whenLegal_next, next_inj]

theorem exec_ackin_next {pkt : Packet} {s t : State} :
    exec (.ackin pkt) s = .next t ↔
      s.tx.cfg.Legal ∧ pkt.length = s.tx.cfg.P ∧ t = { s with tx := s.tx.onAck s.now pkt } := by
  simp only [exec, execAckin]; rw [whenPacket_next, next_inj]

theorem exec_timeout_next {s t : State} :
    exec .timeout s = .next t ↔ s.tx.cfg.Legal ∧ t = { s with tx := s.tx.onTimeout s.now } := by
  simp only [exec, execTimeout]; rw [whenLegal_next, next_inj]

theorem exec_pktin_next {pkt : Packet} {s t : State} :
    exec (.pktin pkt) s = .next t ↔
      s.rx.cfg.Legal ∧ pkt.length = s.rx.cfg.P ∧ t = { s with rx := s.rx.onPacket pkt } := by
  simp only [exec, execPktin]; rw [whenPacket_next, next_inj]

theorem exec_arm_next {d : Time} {s t : State} :
    exec (.arm d) s = .next t ↔ s.tx.cfg.Legal ∧ t = { s with tx := s.tx.arm s.now d } := by
  simp only [exec, execArm]; rw [whenLegal_next, next_inj]

theorem exec_cancel_next {s t : State} :
    exec .cancel s = .next t ↔ s.tx.cfg.Legal ∧ t = { s with tx := s.tx.cancel } := by
  simp only [exec, execCancel]; rw [whenLegal_next, next_inj]

theorem exec_query_next {s t : State} :
    exec .query s = .next t ↔ s.tx.cfg.Legal ∧ t = s.answer (.bit s.tx.tmrArmed) .tx := by
  simp only [exec, execQuery]; rw [whenLegal_next, next_inj]

theorem exec_expire_next {s t : State} :
    exec .expire s = .next t ↔
      s.tx.cfg.Legal ∧ expireEnabled s = true ∧ t = { s with tx := s.tx.expire s.now } := by
  simp only [exec, execExpire]; rw [whenLegal_next, ite_next]

theorem exec_xmit_next {sd : Side} {pkt : Packet} {s t : State} :
    exec (.xmit sd pkt) s = .next t ↔
      (s.cfgOf sd).Legal ∧ pkt.length = (s.cfgOf sd).P ∧ t = s.emitAt (.xmit pkt) sd := by
  simp only [exec, execXmit]; rw [whenPacket_next, next_inj]

theorem exec_deliver_next {bytes : List Byte} {s t : State} :
    exec (.deliver bytes) s = .next t ↔
      s.rx.cfg.Legal ∧ bytes.length ≤ s.rx.cfg.maxPay ∧ t = s.emitAt (.deliver bytes) .rx := by
  simp only [exec, execDeliver]; rw [whenLegal_next, ite_next, wfDeliver, decide_eq_true_iff]

theorem exec_packet_next {sd : Side} {pkt : Packet} {s t : State} :
    exec (.packet sd pkt) s = .next t ↔
      (s.cfgOf sd).Legal ∧ pkt.length = (s.cfgOf sd).P ∧ t = s.receive pkt sd := by
  simp only [exec, execPacket]; rw [whenPacket_next, next_inj]

/-- Everything a step can do (R82): nothing, RESET of an instance, or the operation the event selects. -/
theorem step_cases {s t : State} (h : step s = .next t) :
    (s.events = [] ∧ t = s) ∨
    (∃ e rest sd, s.events = e :: rest ∧ e.input = .reset sd ∧ (s.cfgOf sd).Legal ∧ t = (s.take e rest).resetAt sd) ∨
    (∃ e rest sd port bytes i, s.events = e :: rest ∧ e.input = .present sd port bytes ∧
      decodeEvent sd port (s.cfgOf sd).P bytes = .ok i ∧ exec i (s.take e rest) = .next t) := by
  unfold step at h
  split at h
  · rename_i he; exact .inl ⟨he, next_inj.mp h⟩
  · rename_i e rest he
    unfold dispatch at h
    split at h
    · rename_i sd hi
      rw [whenLegal_next, next_inj, State.take_cfgOf] at h
      exact .inr (.inl ⟨e, rest, sd, he, hi, h.1, h.2⟩)
    · rename_i sd port bytes hi
      rw [State.take_cfgOf] at h
      split at h
      · cases h
      · rename_i i hd; exact .inr (.inr ⟨e, rest, sd, port, bytes, i, he, hi, hd, h⟩)

end Sys2Proof.Laws
end

