-- ==== Sys2Proof/Laws/Fragment.lean ====
section
/-! SUPPORT. FRAGMENT in closed form (spec 41_fragmenter.md R57, R58). -/

namespace Sys2Proof.Laws

open Sys2Proof.Machine Sys2Proof.Safety

theorem fragmentLoop_eq : ∀ (fuel : Nat) (msg : List Byte) (t : Sender), t.cfg.Legal → t.nextSeq.toNat < t.cfg.M →
    msg.length ≤ fuel →
    Sender.fragmentLoop fuel msg t =
      { t with
        bufferQueue := t.bufferQueue ++ packetsOf t.cfg t.nextSeq.toNat msg
        nextSeq := BitVec.ofNat 8 (addM t.cfg.M t.nextSeq.toNat (chunkCount t.cfg msg.length)) } := by
  intro fuel
  induction fuel with
  | zero =>
    intro msg t hc hs hm
    obtain rfl : msg = [] := List.length_eq_zero_iff.mp (by omega)
    simp [Sender.fragmentLoop, packetsOf_nil hc, chunkCount_zero hc, addM_zero hs]
  | succ fuel ih =>
    intro msg t hc hs hm
    have hb := legal_bounds hc
    rcases msg with _ | ⟨b, bs⟩
    · simp [Sender.fragmentLoop, packetsOf_nil hc, chunkCount_zero hc, addM_zero hs]
    · have hn := nextInSpace_toNat hc t.nextSeq
      rw [Sender.fragmentLoop, ih _ (t.pushChunk ((b :: bs).take t.cfg.maxPay)) hc (by
        simp only [Sender.pushChunk_nextSeq, Sender.pushChunk_cfg, hn]; exact addM_lt (by omega) _ _) (by
        rw [List.length_drop]; simp only [List.length_cons] at hm ⊢; omega)]
      rw [packetsOf_cons hc _ (List.cons_ne_nil b bs), chunkCount_pos hc (by simp)]
      simp only [Sender.pushChunk, hn, addM_assoc, List.length_drop, Nat.add_comm 1, packetOf, addM_zero hs, chunk_zero,
        List.append_assoc, List.singleton_append, BitVec.ofNat_toNat, BitVec.setWidth_eq]

/-- FRAGMENT appends the message's packets to `bufferQueue` and advances `nextSeq` by their number; nothing else
changes. -/
theorem fragment_eq (msg : List Byte) (t : Sender) (hc : t.cfg.Legal) (hs : t.nextSeq.toNat < t.cfg.M) :
    t.fragment msg =
      { t with
        bufferQueue := t.bufferQueue ++ packetsOf t.cfg t.nextSeq.toNat msg
        nextSeq := BitVec.ofNat 8 (addM t.cfg.M t.nextSeq.toNat (chunkCount t.cfg msg.length)) } :=
  fragmentLoop_eq _ msg t hc hs le_rfl

/-- FRAGMENT of an empty message does nothing, in any state. -/
theorem fragment_nil (t : Sender) : t.fragment [] = t := rfl

/-- What FRAGMENT writes, in any state: `nextSeq` and `bufferQueue`, and nothing else (R57). -/
theorem fragment_frame (msg : List Byte) (t : Sender) :
    ∃ q n, t.fragment msg = { t with bufferQueue := q, nextSeq := n } := by
  unfold Sender.fragment
  generalize msg.length = fuel
  induction fuel generalizing msg t with
  | zero => exact ⟨_, _, rfl⟩
  | succ fuel ih =>
    rcases msg with _ | ⟨b, bs⟩
    · exact ⟨_, _, rfl⟩
    · obtain ⟨q, n, h⟩ := ih ((b :: bs).drop t.cfg.maxPay) (t.pushChunk ((b :: bs).take t.cfg.maxPay))
      exact ⟨q, n, by rw [Sender.fragmentLoop, h]; rfl⟩

end Sys2Proof.Laws
end

