-- ==== Sys2Proof/Laws/Packet.lean ====
section
/-! SUPPORT. Reading and writing packet bytes: the closed forms of `memRead`, `memWrite`, `putBytes` and ENCODE, and that
CKSUM does not read bytes 2 and 3 (spec 40_codec.md R50, R53). -/

namespace Sys2Proof.Laws

open Sys2Proof.Machine Sys2Proof.Safety

section Bytes

@[simp] theorem byteAt_zero (b : Byte) (pkt : Packet) : byteAt (b :: pkt) 0 = b := rfl

@[simp] theorem byteAt_succ (b : Byte) (pkt : Packet) (i : Nat) : byteAt (b :: pkt) (i + 1) = byteAt pkt i := by
  simp [byteAt]

/-- A 16-bit read is big-endian (R29). -/
theorem memRead_two (pkt : Packet) (off : Nat) :
    memRead pkt off 2 = (byteAt pkt off).toNat * 256 + (byteAt pkt (off + 1)).toNat := by
  simp [memRead]

/-- A 16-bit read is below 65536. -/
theorem memRead_two_lt (pkt : Packet) (off : Nat) : memRead pkt off 2 < 65536 := by
  have h1 := (byteAt pkt off).isLt
  have h2 := (byteAt pkt (off + 1)).isLt
  rw [memRead_two]; omega

/-- A 16-bit read skips a byte in front of the packet. -/
theorem memRead_two_cons (b : Byte) (pkt : Packet) (off : Nat) : memRead (b :: pkt) (off + 1) 2 = memRead pkt off 2 := by
  simp [memRead_two]

/-- A 16-bit write is big-endian (R29). -/
theorem memWrite_two (pkt : Packet) (off v : Nat) :
    memWrite pkt off 2 v = (pkt.set off (BitVec.ofNat 8 (v / 256))).set (off + 1) (BitVec.ofNat 8 v) := by
  simp [memWrite]

/-- `putBytes` writes one run of bytes and leaves what lies before and after it. -/
theorem putBytes_eq : ∀ (bs : List Byte) (pkt : Packet) (off : Nat), off + bs.length ≤ pkt.length →
    putBytes pkt off bs = pkt.take off ++ bs ++ pkt.drop (off + bs.length) := by
  intro bs
  induction bs with
  | nil => intro pkt off _; simp [putBytes]
  | cons b bs ih =>
    intro pkt off h
    rw [List.length_cons] at h
    rw [putBytes, ih _ _ (by rw [List.length_set]; omega), List.take_set, List.drop_set_of_lt (by omega)]
    have hlen : off < pkt.length := by omega
    rw [show pkt.take (off + 1) = pkt.take off ++ [pkt[off]] by
      rw [List.take_append_getElem hlen]]
    rw [List.set_append_right _ _ (by simp)]
    simp [Nat.min_eq_left hlen.le, Nat.add_assoc, Nat.add_comm 1]

end Bytes

section Checksum

/-- The words of the walk do not depend on the four header bytes. -/
theorem walkWords_header (a b x y : Byte) (body : List Byte) :
    walkWords (a :: b :: x :: y :: body) = (List.range (body.length / 2)).map fun k => memRead body (2 * k) 2 := by
  simp only [walkWords, List.length_cons, HDR]
  refine List.map_congr_left fun k _ => ?_
  rw [show 4 + 2 * k = 2 * k + 1 + 1 + 1 + 1 by omega]
  simp only [memRead_two_cons]

/-- CKSUM does not read the checksum field (R50). -/
theorem cksum_header (a b x y x' y' : Byte) (body : List Byte) :
    cksum (a :: b :: x :: y :: body) = cksum (a :: b :: x' :: y' :: body) := by
  simp only [cksum, cksumSum, walkWords_header]
  rfl

/-- A packet of at least four bytes, header first. -/
theorem header_split (pkt : Packet) (h : 4 ≤ pkt.length) : ∃ a b x y body, pkt = a :: b :: x :: y :: body := by
  match pkt, h with
  | a :: b :: x :: y :: body, _ => exact ⟨a, b, x, y, body, rfl⟩

end Checksum

section Encode

/-- ENCODE in closed form (R53): header, checksum, payload, zero padding. -/
theorem encodePacket_eq (P : Nat) (len seq : Byte) (pay : List Byte) (h : 4 + pay.length ≤ P) :
    let c := (cksum (len :: seq :: 0#8 :: 0#8 :: (pay ++ List.replicate (P - 4 - pay.length) 0#8))).toNat
    encodePacket P len seq pay =
      len :: seq :: BitVec.ofNat 8 (c / 256) :: BitVec.ofNat 8 c :: (pay ++ List.replicate (P - 4 - pay.length) 0#8) := by
  have hb : putBytes (((List.replicate P 0#8).set 0 len).set 1 seq) HDR pay =
      len :: seq :: 0#8 :: 0#8 :: (pay ++ List.replicate (P - 4 - pay.length) 0#8) := by
    obtain ⟨Q, rfl⟩ : ∃ Q, P = Q + 4 := ⟨P - 4, by omega⟩
    rw [putBytes_eq _ _ _ (by simp [HDR]; omega)]
    simp [List.replicate_succ, HDR, Nat.add_comm 4]
  simp only [encodePacket, hb, memWrite_two]
  rfl

/-- ENCODE makes `P` bytes. -/
theorem encodePacket_length (P : Nat) (len seq : Byte) (pay : List Byte) (h : 4 + pay.length ≤ P) :
    (encodePacket P len seq pay).length = P := by
  rw [encodePacket_eq P len seq pay h]
  simp; omega

end Encode

end Sys2Proof.Laws
end

