-- ==== Sys2Proof/Laws/PerInstr.lean ====
section
/-! SUPPORT. A law of the encoder, one lemma per constructor: an operation's event begins with the code the table of
30_encoding.md R46 and R47 gives it, and PACKET's event is the packet alone (R41). -/

namespace Sys2Proof.Laws

open Sys2Proof

/-- The code column of R46 and R47; PACKET has none. -/
def tableCode : Instr → Option Byte
  | .cksum _ _ => some 0x10#8
  | .encode _ _ _ _ => some 0x11#8
  | .verify _ _ => some 0x12#8
  | .fragment _ => some 0x20#8
  | .submit _ => some 0x30#8
  | .admitFromBuffer => some 0x31#8
  | .ackin _ => some 0x32#8
  | .timeout => some 0x33#8
  | .pktin _ => some 0x40#8
  | .arm _ => some 0x50#8
  | .cancel => some 0x51#8
  | .query => some 0x52#8
  | .expire => some 0x53#8
  | .xmit _ _ => some 0x80#8
  | .deliver _ => some 0x81#8
  | .packet _ _ => none

end Sys2Proof.Laws

namespace Sys2Proof.Laws.CodeFirst

open Sys2Proof

/-- An operation that is presented to the event interface begins with its code; one presented by the channel has `P`
bytes when it is well formed. -/
def Statement (i : Instr) : Prop :=
  (i.port = .cmd → (encode i).head? = tableCode i) ∧
    (i.port = .wire → ∀ cfg : Side → Cfg, i.wf cfg = true → (encode i).length = (cfg i.side).P)

theorem cksum (sd : Side) (pkt : Packet) : Statement (.cksum sd pkt) := ⟨fun _ => rfl, nofun⟩
theorem encode (sd : Side) (len seq : Byte) (pay : List Byte) : Statement (.encode sd len seq pay) := ⟨fun _ => rfl, nofun⟩
theorem verify (sd : Side) (pkt : Packet) : Statement (.verify sd pkt) := ⟨fun _ => rfl, nofun⟩
theorem fragment (msg : List Byte) : Statement (.fragment msg) := ⟨fun _ => rfl, nofun⟩
theorem submit (msg : List Byte) : Statement (.submit msg) := ⟨fun _ => rfl, nofun⟩
theorem admitFromBuffer : Statement .admitFromBuffer := ⟨fun _ => rfl, nofun⟩
theorem ackin (pkt : Packet) : Statement (.ackin pkt) := ⟨fun _ => rfl, nofun⟩
theorem timeout : Statement .timeout := ⟨fun _ => rfl, nofun⟩
theorem pktin (pkt : Packet) : Statement (.pktin pkt) := ⟨fun _ => rfl, nofun⟩
theorem arm (d : Time) : Statement (.arm d) := ⟨fun _ => rfl, nofun⟩
theorem cancel : Statement .cancel := ⟨fun _ => rfl, nofun⟩
theorem query : Statement .query := ⟨fun _ => rfl, nofun⟩
theorem expire : Statement .expire := ⟨fun _ => rfl, nofun⟩
theorem xmit (sd : Side) (pkt : Packet) : Statement (.xmit sd pkt) := ⟨fun _ => rfl, nofun⟩
theorem deliver (bytes : List Byte) : Statement (.deliver bytes) := ⟨fun _ => rfl, nofun⟩
theorem packet (sd : Side) (pkt : Packet) : Statement (.packet sd pkt) :=
  ⟨nofun, fun _ cfg h => by simpa [Instr.wf, wfPacket, Instr.side, Sys2Proof.encode] using h⟩

end Sys2Proof.Laws.CodeFirst
end

