-- ==== Sys2Proof/Laws/Receiver.lean ====
section
/-! SUPPORT. Everything PKTIN can do, said once (spec 43_receiver.md R70). -/

namespace Sys2Proof.Laws

open Sys2Proof.Machine Sys2Proof.Safety

/-- What PKTIN's classification says of the packet, case by case (R70). -/
theorem classifyPkt_cases (c : Cfg) (expected : Byte) (pkt : Packet) :
    (verify pkt = false ∧ classifyPkt c expected pkt = .dropCksum) ∨
    (verify pkt = true ∧ seqOf pkt ≠ expected.toNat ∧ classifyPkt c expected pkt = .dropSeq) ∨
    (verify pkt = true ∧ seqOf pkt = expected.toNat ∧ c.maxPay < lenOf pkt ∧ classifyPkt c expected pkt = .dropLen) ∨
    (verify pkt = true ∧ seqOf pkt = expected.toNat ∧ lenOf pkt ≤ c.maxPay ∧ classifyPkt c expected pkt = .accept) := by
  unfold classifyPkt
  cases verify pkt with
  | false => exact .inl ⟨rfl, rfl⟩
  | true =>
    by_cases hs : seqOf pkt = expected.toNat
    · by_cases hl : c.maxPay < lenOf pkt
      · exact .inr (.inr (.inl ⟨rfl, hs, hl, by simp [hs, hl]⟩))
      · exact .inr (.inr (.inr ⟨rfl, hs, by omega, by simp [hs, hl]⟩))
    · exact .inr (.inl ⟨rfl, hs, by simp [hs]⟩)

/-- Everything PKTIN can do (R70): nothing, or deliver, echo and advance. -/
theorem onPacket_cases (pkt : Packet) (r : Receiver) :
    r.onPacket pkt = r ∨
      (verify pkt = true ∧ seqOf pkt = r.expectedSeq.toNat ∧ lenOf pkt ≤ r.cfg.maxPay ∧
        r.onPacket pkt =
          { r with
            expectedSeq := nextInSpace r.cfg r.expectedSeq
            out := r.out ++ [.deliver (payOf pkt), .xmit pkt] }) := by
  unfold Receiver.onPacket
  rcases classifyPkt_cases r.cfg r.expectedSeq pkt with h | h | h | h
  · exact .inl (by rw [h.2])
  · exact .inl (by rw [h.2.2])
  · exact .inl (by rw [h.2.2.2])
  · exact .inr ⟨h.1, h.2.1, h.2.2.1, by rw [h.2.2.2]; simp [Receiver.emit]⟩

/-- A packet that passes every test is accepted (R70). -/
theorem onPacket_accept {pkt : Packet} {r : Receiver} (hv : verify pkt = true)
    (hs : seqOf pkt = r.expectedSeq.toNat) (hl : lenOf pkt ≤ r.cfg.maxPay) :
    r.onPacket pkt =
      { r with
        expectedSeq := nextInSpace r.cfg r.expectedSeq
        out := r.out ++ [.deliver (payOf pkt), .xmit pkt] } := by
  have h : classifyPkt r.cfg r.expectedSeq pkt = .accept := by
    simp [classifyPkt, hv, hs, Nat.not_lt.mpr hl]
  simp [Receiver.onPacket, h, Receiver.emit]

end Sys2Proof.Laws
end

