-- ==== Sys2Proof/Laws/Run.lean ====
section
/-! SUPPORT. Runs of several operations, and the parts of a round of recovery (spec 70_reset_and_hazards.md R93, R95;
log 21). -/

namespace Sys2Proof.Laws

open Sys2Proof.Machine Sys2Proof.Safety

@[simp] theorem execAll_nil (s : State) : execAll [] s = .next s := rfl

/-- A run begins with its first operation. -/
theorem execAll_cons_of_next {i : Instr} {rest : List Instr} {s t : State} (h : exec i s = .next t) :
    execAll (i :: rest) s = execAll rest t := by rw [execAll, h]

/-- A run can be cut wherever its first part answers a next state. -/
theorem execAll_append_of_next {first second : List Instr} {s t : State} (h : execAll first s = .next t) :
    execAll (first ++ second) s = execAll second t := by
  induction first generalizing s with
  | nil => cases h; rfl
  | cons i rest ih =>
    rw [List.cons_append, execAll]; rw [execAll] at h
    cases hx : exec i s with
    | next u => rw [hx] at h; exact ih h
    | fault f => cases f
    | refused r => rw [hx] at h; cases h

@[simp] theorem atExpiry_tx (s : State) : (atExpiry s).tx = s.tx := rfl
@[simp] theorem atExpiry_rx (s : State) : (atExpiry s).rx = s.rx := rfl
@[simp] theorem atExpiry_timing (s : State) : (atExpiry s).timing = s.timing := rfl
@[simp] theorem atExpiry_events (s : State) : (atExpiry s).events = s.events := rfl

/-- When the expiry is due, EXPIRE is enabled in either treatment of time exactly while the timer is armed (R77, R79). -/
theorem expireEnabled_atExpiry (s : State) : expireEnabled (atExpiry s) = s.tx.tmrArmed := by
  have : s.tx.tmrDeadline ≤ (atExpiry s).now := Nat.le_max_right _ _
  cases h : s.timing <;> simp [expireEnabled, h, this]

/-- With an empty window there is nothing to recover. -/
theorem recoveryRound_of_empty {s : State} (h : s.tx.windowQueue = []) : recoveryRound s = [] := by
  simp [recoveryRound, h]

@[simp] theorem recoveryRounds_zero (s : State) : recoveryRounds 0 s = .next s := rfl

theorem recoveryRounds_succ_of_next {n : Nat} {s t : State} (h : execAll (recoveryRound s) (atExpiry s) = .next t) :
    recoveryRounds (n + 1) s = recoveryRounds n t := by rw [recoveryRounds, h]

end Sys2Proof.Laws
end

