-- ==== Sys2Proof/Laws/Sender.lean ====
section
/-! SUPPORT. What each shared operation of the sender does, said once and in closed form: later proofs cite these and do not
unfold the loops. -/

namespace Sys2Proof.Laws

open Sys2Proof.Machine Sys2Proof.Safety

section Transmissions

@[simp] theorem transmissions_nil (d : Time) : transmissions d [] = [] := rfl

@[simp] theorem transmissions_cons (d : Time) (p : Packet) (l : List Packet) :
    transmissions d (p :: l) = .xmit p :: .arm d :: transmissions d l := rfl

theorem transmissions_append (d : Time) (l m : List Packet) :
    transmissions d (l ++ m) = transmissions d l ++ transmissions d m := List.flatMap_append

end Transmissions

section Sender

/-- A transmission: the packet and the ARM in the trace, and one pending expiry. -/
theorem transmit_eq (now : Time) (pkt : Packet) (t : Sender) :
    t.transmit now pkt =
      { t with
        out := t.out ++ transmissions t.cfg.timeout [pkt]
        tmrArmed := true
        tmrDeadline := now + t.cfg.timeout } := by
  simp [Sender.transmit, Sender.emit, Sender.arm]

theorem retransmitted_nil (now : Time) (t : Sender) : retransmitted now [] t = t := by
  simp [retransmitted]

/-- Transmitting one packet and then others is transmitting them all. -/
theorem retransmitted_cons (now : Time) (p : Packet) (l : List Packet) (t : Sender) :
    retransmitted now l (t.transmit now p) = retransmitted now (p :: l) t := by
  rw [transmit_eq]
  by_cases hl : l = [] <;> simp [retransmitted, hl]

/-- TIMEOUT's loop in closed form (R66). -/
theorem retransmit_eq (now : Time) : ∀ (l : List Packet) (t : Sender),
    Sender.retransmit now l t = retransmitted now l t := by
  intro l
  induction l with
  | nil => intro t; rw [Sender.retransmit, retransmitted_nil]
  | cons p l ih => intro t; rw [Sender.retransmit, ih, retransmitted_cons]

theorem admissible_length (t : Sender) :
    (admissible t).length = min (t.cfg.W - t.windowQueue.length) t.bufferQueue.length := by
  simp only [admissible, List.length_take]; omega

/-- Where ADMIT has nothing to move it changes nothing (R61). -/
theorem admitted_of_empty (now : Time) (t : Sender) (h : admissible t = []) : admitted now t = t := by
  simp [admitted, h, retransmitted_nil]

/-- With room in the window and a packet in the buffer, ADMIT moves that packet and then what remains to be moved. -/
theorem admitted_step (now : Time) (t : Sender) (pkt : Packet) (rest : List Packet) (hb : t.bufferQueue = pkt :: rest)
    (hw : t.windowQueue.length < t.cfg.W) : admitted now t = admitted now (t.admitOne now pkt rest) := by
  have hadm : admissible t = pkt :: admissible (t.admitOne now pkt rest) := by
    have hmin : min (t.cfg.W - t.windowQueue.length) (rest.length + 1) =
        min (t.cfg.W - (t.windowQueue.length + 1)) rest.length + 1 := by omega
    simp [admissible, Sender.admitOne, transmit_eq, hb, hmin]
  rw [admitted, hadm, ← retransmitted_cons]
  simp only [admitted, Sender.admitOne, transmit_eq, hb, List.length_cons, List.drop_succ_cons, List.append_assoc,
    List.singleton_append]

theorem admitLoop_eq (now : Time) : ∀ (fuel : Nat) (t : Sender), t.bufferQueue.length ≤ fuel →
    Sender.admitLoop now fuel t = admitted now t := by
  intro fuel
  induction fuel with
  | zero =>
    intro t h
    have h0 : t.bufferQueue = [] := List.length_eq_zero_iff.mp (by omega)
    rw [Sender.admitLoop, admitted_of_empty _ _ (by simp [admissible, h0])]
  | succ fuel ih =>
    intro t h
    rw [Sender.admitLoop]
    rcases hb : t.bufferQueue with _ | ⟨pkt, rest⟩
    · rw [admitted_of_empty _ _ (by simp [admissible, hb])]
    · by_cases hw : t.windowQueue.length < t.cfg.W
      · simp only [hw, if_true]
        rw [ih _ (by simp only [Sender.admitOne, transmit_eq]; rw [hb, List.length_cons] at h; omega),
          ← admitted_step now t pkt rest hb hw]
      · simp only [hw, if_false]
        rw [admitted_of_empty _ _ (List.length_eq_zero_iff.mp (by rw [admissible_length]; omega))]

/-- ADMIT in closed form (R61). -/
theorem admit_eq (now : Time) (t : Sender) : t.admitFromBuffer now = admitted now t := admitLoop_eq now _ t le_rfl

/-- What ACKIN's classification says of the packet, case by case (R62). -/
theorem classifyAck_cases (c : Cfg) (last : Byte) (pkt : Packet) :
    (verify pkt = false ∧ classifyAck c last pkt = .dropCksum) ∨
    (verify pkt = true ∧ c.M ≤ seqOf pkt ∧ classifyAck c last pkt = .dropRange) ∨
    (verify pkt = true ∧ seqOf pkt < c.M ∧ ackGuard c.M c.W (seqOf pkt) last.toNat = true ∧
      classifyAck c last pkt = .dropGuard) ∨
    (verify pkt = true ∧ seqOf pkt < c.M ∧ ackGuard c.M c.W (seqOf pkt) last.toNat = false ∧
      (subM c.M (seqOf pkt) last.toNat = 0 ∨ c.W < subM c.M (seqOf pkt) last.toNat) ∧
      classifyAck c last pkt = .noChange) ∨
    (verify pkt = true ∧ seqOf pkt < c.M ∧ ackGuard c.M c.W (seqOf pkt) last.toNat = false ∧
      0 < subM c.M (seqOf pkt) last.toNat ∧ subM c.M (seqOf pkt) last.toNat ≤ c.W ∧
      classifyAck c last pkt = .cumulative (subM c.M (seqOf pkt) last.toNat)) := by
  unfold classifyAck
  cases verify pkt with
  | false => exact .inl ⟨rfl, rfl⟩
  | true =>
    by_cases hm : seqOf pkt ≥ c.M
    · exact .inr (.inl ⟨rfl, hm, by simp [hm]⟩)
    · cases hg : ackGuard c.M c.W (seqOf pkt) last.toNat with
      | true => exact .inr (.inr (.inl ⟨rfl, by omega, rfl, by simp [hm]⟩))
      | false =>
        by_cases hk : 0 < subM c.M (seqOf pkt) last.toNat ∧ subM c.M (seqOf pkt) last.toNat ≤ c.W
        · exact .inr (.inr (.inr (.inr ⟨rfl, by omega, rfl, hk.1, hk.2, by simp [hm, hk]⟩)))
        · refine .inr (.inr (.inr (.inl ⟨rfl, by omega, rfl, by omega, ?_⟩)))
          simp only [reduceCtorEq, if_false, hm, Bool.false_eq_true, hk]

/-- Everything ACKIN can do (R62): nothing, ADMIT, or the removal and then ADMIT. -/
theorem onAck_cases (now : Time) (pkt : Packet) (t : Sender) :
    t.onAck now pkt = t ∨ t.onAck now pkt = t.admitFromBuffer now ∨
      (verify pkt = true ∧ seqOf pkt < t.cfg.M ∧
        0 < subM t.cfg.M (seqOf pkt) t.lastAck.toNat ∧ subM t.cfg.M (seqOf pkt) t.lastAck.toNat ≤ t.cfg.W ∧
        t.onAck now pkt =
          (t.acknowledge (byteAt pkt 1) (subM t.cfg.M (seqOf pkt) t.lastAck.toNat)).admitFromBuffer now) := by
  unfold Sender.onAck
  rcases classifyAck_cases t.cfg t.lastAck pkt with h | h | h | h | h
  · exact .inl (by rw [h.2])
  · exact .inl (by rw [h.2.2])
  · exact .inl (by rw [h.2.2.2])
  · exact .inr (.inl (by rw [h.2.2.2.2]))
  · exact .inr (.inr ⟨h.1, h.2.1, h.2.2.2.1, h.2.2.2.2.1, by rw [h.2.2.2.2.2]⟩)

end Sender

end Sys2Proof.Laws
end

