-- ==== Sys2Proof/Tests/Slice0.lean ====
section
/-! SUPPORT. Tests: the decoding of words written out from the spec's encodings, operands the well-formedness checks refuse,
the test vectors of spec 95_test_vectors.md, and for every statement with hypotheses a case that meets them. The expected
values are the spec's: each test names the vector, the program step or the rule it is taken from. -/

namespace Sys2Proof.Tests

open Sys2Proof.Machine Sys2Proof.Safety

/-! ## Helpers -/

/-- The configuration of PR3: `MAXPAY = 4`, `M = 5`. -/
def small : Cfg := { P := 8, S := 6, W := 2, timeout := 300, bufDepth := none }

/-- The configuration of V-TX-9: `M = 4`, `2W >= M`. -/
def tight : Cfg := { P := 8, S := 5, W := 2, timeout := 300, bufDepth := none }

/-- A sender of the test notation: `nextSeq lastAck win buf armed`. -/
def sender (c : Cfg) (next last : Byte) (win buf : List Packet) (armed : Bool) : Sender :=
  { Sender.initial c with nextSeq := next, lastAck := last, windowQueue := win, bufferQueue := buf, tmrArmed := armed }

/-- A receiver of the test notation: `expectedSeq`. -/
def receiver (c : Cfg) (expected : Byte) : Receiver := { Receiver.initial c with expectedSeq := expected }

/-- A machine of two instances, at time 0, untimed, with no event waiting. -/
def machine (t : Sender) (r : Receiver) : State := { State.reset with tx := t, rx := r }

/-- A machine whose two instances have just been reset under one configuration. -/
def fresh (c : Cfg) : State := machine (Sender.initial c) (Receiver.initial c)

/-- `s` with one event to dispatch, at once. -/
def withEvent (s : State) (x : Input) : State := { s with events := [{ delay := 0, input := x }] }

/-- The next state of an outcome that has one. -/
def got : Outcome → State
  | .next t => t
  | .fault _ => State.reset
  | .refused _ => State.reset

/-- Whether an outcome is a next state. -/
def runs : Outcome → Bool
  | .next _ => true
  | .fault _ => false
  | .refused _ => false

/-- The reason of an outcome that is a refusal. -/
def refusal : Outcome → Option Refusal
  | .next _ => none
  | .fault _ => none
  | .refused r => some r

theorem eq_next_of_runs (o : Outcome) (h : runs o = true) : o = .next (got o) := by
  cases o with
  | next t => rfl
  | fault f => cases f
  | refused r => cases h

/-! The packets of PR3: `s0` to `s5`. -/

def s0 : Packet := [0x04#8, 0x00#8, 0xD9#8, 0xDB#8, 0x10#8, 0x11#8, 0x12#8, 0x13#8]
def s1 : Packet := [0x04#8, 0x01#8, 0xD1#8, 0xD2#8, 0x14#8, 0x15#8, 0x16#8, 0x17#8]
def s2 : Packet := [0x04#8, 0x02#8, 0xC9#8, 0xC9#8, 0x18#8, 0x19#8, 0x1A#8, 0x1B#8]
def s3 : Packet := [0x04#8, 0x03#8, 0xC1#8, 0xC0#8, 0x1C#8, 0x1D#8, 0x1E#8, 0x1F#8]
def s4 : Packet := [0x04#8, 0x04#8, 0xB9#8, 0xB7#8, 0x20#8, 0x21#8, 0x22#8, 0x23#8]
def s5 : Packet := [0x02#8, 0x00#8, 0xD9#8, 0xDA#8, 0x24#8, 0x25#8, 0x00#8, 0x00#8]

/-- PR3's message, 22 bytes `10 .. 25`. -/
def message : List Byte := (List.range 22).map fun i => BitVec.ofNat 8 (0x10 + i)

/-- V-CK-1's packet. -/
def ck1 : Packet := [0x04#8, 0x02#8, 0xFB#8, 0xFC#8, 0xFF#8, 0xFF#8, 0x00#8, 0x01#8]

/-- V-CK-10: V-CK-1's packet with its two payload words exchanged. -/
def ck10 : Packet := [0x04#8, 0x02#8, 0xFB#8, 0xFC#8, 0x00#8, 0x01#8, 0xFF#8, 0xFF#8]

/-- V-CK-3's packet, whose walk reaches the largest sum. -/
def ck3 : Packet := [0x04#8, 0x01#8, 0x00#8, 0x00#8, 0xFB#8, 0xFE#8, 0xFF#8, 0xFF#8]

/-- The packets of V-TX-9. -/
def q1 : Packet := [0x04#8, 0x01#8, 0xF9#8, 0xFC#8, 0x01#8, 0x01#8, 0x01#8, 0x01#8]
def q2 : Packet := [0x04#8, 0x02#8, 0xF9#8, 0xFB#8, 0x01#8, 0x01#8, 0x01#8, 0x01#8]
def q3 : Packet := [0x04#8, 0x03#8, 0xF9#8, 0xFA#8, 0x01#8, 0x01#8, 0x01#8, 0x01#8]

/-- A packet with a good checksum and a length byte above `MAXPAY` (V-RX-2's header, for `P = 8`). -/
def tooLong : Packet := [0xFF#8, 0x00#8, 0x00#8, 0xFF#8, 0x00#8, 0x00#8, 0x00#8, 0x00#8]

/-- `PKT(0, 0, <none>)` for `P = 8` (V-CK-4). -/
def emptyPacket : Packet := [0x00#8, 0x00#8, 0xFF#8, 0xFF#8, 0x00#8, 0x00#8, 0x00#8, 0x00#8]

/-! ## Operands the well-formedness checks refuse -/

theorem test_wf_refuses_long_packet : (Instr.ackin (0x00#8 :: s0)).wf (fun _ => small) = false := by decide
theorem test_wf_refuses_short_packet : (Instr.packet .rx (s0.take 7)).wf (fun _ => small) = false := by decide
theorem test_wf_refuses_encode_beyond_maxpay :
    (Instr.encode .tx 5#8 0#8 [1#8, 2#8, 3#8, 4#8, 5#8]).wf (fun _ => small) = false := by decide
theorem test_wf_refuses_encode_of_wrong_payload_length :
    (Instr.encode .tx 3#8 0#8 [1#8, 2#8]).wf (fun _ => small) = false := by decide
theorem test_wf_refuses_deliver_beyond_maxpay :
    (Instr.deliver [1#8, 2#8, 3#8, 4#8, 5#8]).wf (fun _ => small) = false := by decide

/-! ## Decoding: one word per row of the table, written from R46, R47 and R41 -/

theorem test_decode_cksum : decodeEvent .rx .cmd 8 (0x10#8 :: ck1) = .ok (.cksum .rx ck1) := by decide
theorem test_decode_encode :
    decodeEvent .tx .cmd 8 [0x11#8, 2#8, 5#8, 0x41#8, 0x42#8] = .ok (.encode .tx 2#8 5#8 [0x41#8, 0x42#8]) := by decide
theorem test_decode_verify : decodeEvent .tx .cmd 8 (0x12#8 :: ck1) = .ok (.verify .tx ck1) := by decide
theorem test_decode_fragment :
    decodeEvent .tx .cmd 8 [0x20#8, 3#8, 7#8, 8#8, 9#8] = .ok (.fragment [7#8, 8#8, 9#8]) := by decide
theorem test_decode_submit : decodeEvent .tx .cmd 8 [0x30#8, 1#8, 0xDD#8] = .ok (.submit [0xDD#8]) := by decide
theorem test_decode_admit : decodeEvent .tx .cmd 8 [0x31#8] = .ok .admitFromBuffer := by decide
theorem test_decode_ackin : decodeEvent .tx .cmd 8 (0x32#8 :: s1) = .ok (.ackin s1) := by decide
theorem test_decode_timeout : decodeEvent .tx .cmd 8 [0x33#8] = .ok .timeout := by decide
theorem test_decode_pktin : decodeEvent .rx .cmd 8 (0x40#8 :: s0) = .ok (.pktin s0) := by decide
theorem test_decode_arm : decodeEvent .tx .cmd 8 [0x50#8, 0xAC#8, 0x02#8] = .ok (.arm 300) := by decide
theorem test_decode_cancel : decodeEvent .tx .cmd 8 [0x51#8] = .ok .cancel := by decide
theorem test_decode_query : decodeEvent .tx .cmd 8 [0x52#8] = .ok .query := by decide
theorem test_decode_expire : decodeEvent .tx .cmd 8 [0x53#8] = .ok .expire := by decide
theorem test_decode_xmit : decodeEvent .rx .cmd 8 (0x80#8 :: s0) = .ok (.xmit .rx s0) := by decide
theorem test_decode_deliver : decodeEvent .rx .cmd 8 [0x81#8, 1#8, 0x5A#8] = .ok (.deliver [0x5A#8]) := by decide
theorem test_decode_packet : decodeEvent .rx .wire 8 s0 = .ok (.packet .rx s0) := by decide

/-- R46: a code that is in no table, a receiver's code at the sender, a packet one byte short, a byte too many. -/
theorem test_decode_refuses :
    decodeEvent .tx .cmd 8 [0x13#8] = .error (.unknownCode 0x13#8) ∧
      decodeEvent .tx .cmd 8 (0x40#8 :: s0) = .error (.wrongSide 0x40#8) ∧
      decodeEvent .tx .cmd 8 (0x32#8 :: s0.take 7) = .error .truncated ∧
      decodeEvent .tx .cmd 8 [0x31#8, 0#8] = .error .trailing := by decide

/-- A row's bits alone, presented after reset, run the row's operation. -/
theorem test_step_runs_a_table_word :
    runs (step (State.reset.withFetchWord 8 0x33)) = true ∧ runs (step (State.reset.withFetchWord 8 0x40)) = true := by
  decide +kernel

/-! ## The codec -/

/-- V-CK-1. -/
theorem test_cksum_folds_once : (got (exec (.cksum .tx ck1) (fresh small))).tx.result = .cksum 0xFBFC#16 := by decide
/-- V-CK-3: the largest sum. -/
theorem test_cksum_of_largest_sum : (got (exec (.cksum .rx ck3) (fresh small))).rx.result = .cksum 0x0000#16 := by decide
/-- V-CK-1. -/
theorem test_encode_full_payload :
    (got (exec (.encode .tx 4#8 2#8 [0xFF#8, 0xFF#8, 0x00#8, 0x01#8]) (fresh small))).tx.result = .packet ck1 := by decide
/-- V-CK-6: an odd length, padding of zeros, the default configuration. -/
theorem test_encode_odd_payload :
    (got (exec (.encode .rx 3#8 5#8 [0x41#8, 0x42#8, 0x43#8]) State.reset)).rx.result =
      .packet ([0x03#8, 0x05#8, 0x78#8, 0xB8#8, 0x41#8, 0x42#8, 0x43#8] ++ List.replicate 57 0#8) := by decide +kernel
/-- V-CK-4: eight zero bytes do not verify. -/
theorem test_verify_refuses_zeros :
    (got (exec (.verify .tx (List.replicate 8 0#8)) (fresh small))).tx.result = .bit false := by decide
/-- V-CK-10: exchanged words verify. -/
theorem test_verify_accepts_exchanged_words : (got (exec (.verify .rx ck10) (fresh small))).rx.result = .bit true := by
  decide

/-! ## The fragmenter and the window manager -/

/-- PR3's packets, nothing transmitted (R57), and V-FR-1's empty message. -/
theorem test_fragment_makes_the_packets :
    let t := (got (exec (.fragment message) (fresh small))).tx
    t.bufferQueue = [s0, s1, s2, s3, s4, s5] ∧ t.nextSeq = 1#8 ∧ t.out = [] ∧ t.windowQueue = [] := by decide
theorem test_fragment_of_nothing : (got (exec (.fragment []) (fresh small))).tx = Sender.initial small := by decide
/-- PR3, first event. -/
theorem test_submit_fills_the_window :
    let t := (got (exec (.submit message) (fresh small))).tx
    t.nextSeq = 1#8 ∧ t.lastAck = 4#8 ∧ t.windowQueue = [s0, s1] ∧ t.bufferQueue = [s2, s3, s4, s5] ∧
      t.tmrArmed = true ∧ t.out = [.xmit s0, .arm 300, .xmit s1, .arm 300] := by decide
/-- V-TM-10. -/
theorem test_submit_of_nothing_does_not_arm : (got (exec (.submit []) (fresh small))).tx.tmrArmed = false := by decide
/-- R61's corner case: the window is full. -/
theorem test_admit_into_full_window :
    (got (exec .admitFromBuffer (machine (sender small 3#8 4#8 [s0, s1] [s2] false) (receiver small 0#8)))).tx =
      sender small 3#8 4#8 [s0, s1] [s2] false := by decide
/-- R61: one place in the window, two packets waiting. -/
theorem test_admit_one :
    let t := (got (exec .admitFromBuffer (machine (sender small 4#8 0#8 [s1] [s2, s3] false) (receiver small 0#8)))).tx
    t.windowQueue = [s1, s2] ∧ t.bufferQueue = [s3] ∧ t.tmrArmed = true ∧ t.out = [.xmit s2, .arm 300] := by decide
/-- PR3, fourth event: two packets removed, two admitted. -/
theorem test_ackin_is_cumulative :
    let t := (got (exec (.ackin s1) (machine (sender small 1#8 4#8 [s0, s1] [s2, s3, s4, s5] true) (receiver small 0#8)))).tx
    t.lastAck = 1#8 ∧ t.windowQueue = [s2, s3] ∧ t.bufferQueue = [s4, s5] ∧
      t.out = [.xmit s2, .arm 300, .xmit s3, .arm 300] := by decide
/-- V-TX-9: the guard drops an acknowledgment with `gap = 2`, and lets the one with `gap = 1` pass. -/
theorem test_ackin_guard :
    let s := machine (sender tight 0#8 1#8 [q2, q3] [] true) (receiver tight 0#8)
    (got (exec (.ackin q3) s)).tx = s.tx ∧ (got (exec (.ackin q2) s)).tx.windowQueue = [q3] := by decide
/-- V-TX-5 in the configuration of PR3: the window again, oldest first, the buffer not. -/
theorem test_timeout_resends_the_window :
    let t := (got (exec .timeout (machine (sender small 1#8 1#8 [s2, s3] [s4, s5] false) (receiver small 0#8)))).tx
    t.out = [.xmit s2, .arm 300, .xmit s3, .arm 300] ∧ t.windowQueue = [s2, s3] ∧ t.bufferQueue = [s4, s5] ∧
      t.lastAck = 1#8 ∧ t.tmrArmed = true := by decide
/-- V-TX-6. -/
theorem test_timeout_with_empty_window :
    (got (exec .timeout (machine (sender small 4#8 3#8 [] [] false) (receiver small 0#8)))).tx =
      sender small 4#8 3#8 [] [] false := by decide

/-! ## The receiver -/

/-- V-RX-4: two bytes delivered, the non-zero padding echoed and not delivered. -/
theorem test_pktin_delivers_and_echoes :
    let pkt := [0x02#8, 0x01#8, 0xB9#8, 0x98#8, 0x11#8, 0x22#8, 0x33#8, 0x44#8] ++ List.replicate 56 0#8
    let r := (got (exec (.pktin pkt) { State.reset with rx := receiver Cfg.default 1#8 })).rx
    r.expectedSeq = 2#8 ∧ r.out = [.deliver [0x11#8, 0x22#8], .xmit pkt] := by decide +kernel
/-- V-RX-1: a good checksum, the expected sequence number, a length of 61. -/
theorem test_pktin_drops_length_beyond_maxpay :
    let pkt := [0x3D#8, 0x00#8, 0xC2#8, 0xFF#8] ++ List.replicate 60 0x55#8
    verify pkt = true ∧ (got (exec (.pktin pkt) State.reset)).rx = State.reset.rx := by decide +kernel
/-- PR3: after sequence number 4 comes 0. -/
theorem test_pktin_wraps : (got (exec (.pktin s4) (machine (Sender.initial small) (receiver small 4#8)))).rx.expectedSeq = 0#8 := by
  decide

/-! ## The timer -/

/-- R74's example: armed at 1.0 and again at 1.2, the deadline is 1.5. -/
theorem test_arm_replaces :
    let s := got (exec (.arm 300) { fresh small with now := 1000 })
    s.tx.tmrDeadline = 1300 ∧ (got (exec (.arm 300) { s with now := 1200 })).tx.tmrDeadline = 1500 := by decide
/-- V-TM-8. -/
theorem test_cancel_armed :
    (got (exec .cancel (machine (sender small 1#8 4#8 [s0] [] true) (receiver small 0#8)))).tx.tmrArmed = false := by decide
/-- V-TM-9. -/
theorem test_cancel_idle : (got (exec .cancel (fresh small))).tx = (fresh small).tx := by decide
/-- V-TM-1. -/
theorem test_query_idle : (got (exec .query (fresh small))).tx.result = .bit false := by decide
/-- V-TM-5. -/
theorem test_query_armed :
    (got (exec .query (machine (sender small 1#8 4#8 [s0] [] true) (receiver small 0#8)))).tx.result = .bit true := by decide
/-- V-TM-2. -/
theorem test_expire_idle_has_no_step : refusal (exec .expire (fresh small)) = some .expireNotEnabled := by decide
/-- V-TM-6 and V-TM-7. -/
theorem test_expire_armed :
    (got (exec .expire (machine (sender small 4#8 3#8 [] [] true) (receiver small 0#8)))).tx = sender small 4#8 3#8 [] [] false ∧
      let t := (got (exec .expire (machine (sender small 1#8 1#8 [s2] [] true) (receiver small 0#8)))).tx
      t.out = [.xmit s2, .arm 300] ∧ t.tmrArmed = true := by decide

/-! ## Output events, the channel, reset -/

/-- R47. -/
theorem test_xmit : (got (exec (.xmit .rx s0) (fresh small))).rx.out = [.xmit s0] := by decide
/-- R47. -/
theorem test_deliver : (got (exec (.deliver [0x5A#8]) (fresh small))).rx.out = [.deliver [0x5A#8]] := by decide
/-- PR4's `f0` at the receiver. -/
theorem test_packet_to_receiver :
    let f0 := [0x03#8, 0x00#8, 0x86#8, 0x43#8, 0xAA#8, 0xBB#8, 0xCC#8, 0x00#8]
    (got (exec (.packet .rx f0) (fresh small))).rx.out = [.deliver [0xAA#8, 0xBB#8, 0xCC#8], .xmit f0] := by decide
/-- PR4, continued: the acknowledgment of sequence number 1 at the sender. -/
theorem test_packet_to_sender :
    let a1 := [0x01#8, 0x01#8, 0x21#8, 0xFE#8, 0xDD#8, 0x00#8, 0x00#8, 0x00#8]
    let f0 := [0x03#8, 0x00#8, 0x86#8, 0x43#8, 0xAA#8, 0xBB#8, 0xCC#8, 0x00#8]
    (got (exec (.packet .tx a1) (machine (sender small 2#8 4#8 [f0, a1] [] true) (receiver small 2#8)))).tx =
      sender small 2#8 1#8 [] [] true := by decide
/-- R90, R91: one instance is reset, the other is not touched. -/
theorem test_reset_of_one :
    let s := machine (sender small 3#8 1#8 [s2] [s3] true) (receiver small 3#8)
    let t := got (step (withEvent s (.reset .tx)))
    t.tx.nextSeq = 0#8 ∧ t.tx.lastAck = 4#8 ∧ t.tx.windowQueue = [] ∧ t.tx.bufferQueue = [] ∧ t.tx.tmrArmed = false ∧
      t.rx.expectedSeq = 3#8 := by decide

/-! ## The hypotheses of the statements can be met -/

/-- A sender in mid-run: PR3 after its first event. -/
def busy : State := machine (sender small 1#8 4#8 [s0, s1] [s2, s3, s4, s5] true) (receiver small 0#8)

/-- A sender whose window is full and whose buffer is finite and full. -/
def bounded : State :=
  machine (sender { small with bufDepth := some 1 } 3#8 4#8 [s0, s1] [s2] true) (receiver small 0#8)

/-- A sender with nothing outstanding. -/
def idle : State := fresh small

/-- The sender's state of V-TX-9 with `2W >= M`. -/
def tightState : State := machine (sender tight 0#8 1#8 [q2, q3] [] true) (receiver tight 0#8)

/-- The timed treatment, armed, one tick before the deadline or at it. -/
def timedState (now : Time) : State :=
  { busy with timing := .timed, now := now, tx := { busy.tx with tmrDeadline := 300 } }

theorem test_witness_ChecksumSumIsOnesComplement :
    ((List.range ((ck3.length - 4) / 2)).map fun k => wordAt ck3 (4 + 2 * k))[0]? = some 0xFBFE ∧
      ((List.range ((ck3.length - 4) / 2)).map fun k => wordAt ck3 (4 + 2 * k))[1]? = some 0xFFFF := by decide

/-- The default packet size at the sender, the smallest one at the receiver. -/
theorem test_witness_CksumAnswersTheChecksum :
    let s := machine (Sender.initial Cfg.default) (Receiver.initial { small with P := 6 })
    s.tx.cfg.Legal ∧ (List.replicate 64 0#8).length = s.tx.cfg.P ∧ s.rx.cfg.Legal ∧
      (List.replicate 6 0#8).length = s.rx.cfg.P := by decide

/-- No payload and the largest payload. -/
theorem test_witness_EncodeBuildsTheWireFormat :
    ([] : List Byte).length = (0#8).toNat ∧ [1#8, 2#8, 3#8, 4#8].length = (4#8).toNat ∧ idle.tx.cfg.Legal ∧
      idle.rx.cfg.Legal ∧ (0#8).toNat ≤ idle.tx.cfg.P - 4 ∧ (4#8).toNat ≤ idle.tx.cfg.P - 4 ∧
      (4#8).toNat ≤ idle.rx.cfg.P - 4 := by decide

theorem test_witness_VerifyAnswersFieldEquality :
    idle.tx.cfg.Legal ∧ idle.rx.cfg.Legal ∧ s0.length = idle.tx.cfg.P ∧ s0.length = idle.rx.cfg.P := by decide

theorem test_witness_EncodedPacketsVerify :
    small.Legal ∧ [1#8, 2#8, 3#8, 4#8].length = (4#8).toNat ∧ (4#8).toNat ≤ small.maxPay := by decide

/-- A bit inside the checksum field, and the first and the last bit outside it. -/
theorem test_witness_SingleBitErrorsAreDetected :
    small.Legal ∧ s0.length = small.P ∧ verify s0 = true ∧ (2 < small.P ∧ 0 < small.P ∧ 7 < small.P) ∧ 7 < 8 ∧
      (2 = 2 ∨ 2 = 3) ∧ (0 ≠ 2 ∧ 0 ≠ 3) ∧ 7 ≠ 2 ∧ 7 ≠ 3 := by decide

theorem test_witness_ExchangedWordsAreNotDetected :
    ck1.length = ck10.length ∧ wordAt ck1 2 = wordAt ck10 2 ∧
      (wordAt ck1 0 :: (List.range ((ck1.length - 4) / 2)).map fun k => wordAt ck1 (4 + 2 * k)).Perm
        (wordAt ck10 0 :: (List.range ((ck10.length - 4) / 2)).map fun k => wordAt ck10 (4 + 2 * k)) := by decide

/-- Without a bound on the buffer, and with one that the message reaches exactly. -/
theorem test_witness_FragmentFollowsTheChunkingLaw :
    idle.tx.cfg.Legal ∧ idle.tx.nextSeq.toNat < idle.tx.cfg.M ∧ idle.tx.cfg.bufDepth = none ∧ bounded.tx.cfg.Legal ∧
      bounded.tx.nextSeq.toNat < bounded.tx.cfg.M ∧ bounded.tx.cfg.bufDepth = some 1 ∧
      bounded.tx.bufferQueue.length + (([] : List Byte).length + bounded.tx.cfg.maxPay - 1) / bounded.tx.cfg.maxPay ≤ 1 := by
  decide

theorem test_witness_MessageBoundariesAreNotCarried :
    idle.tx.nextSeq.toNat < idle.tx.cfg.M ∧ idle.tx.cfg.bufDepth = none ∧
      (message.take 4).length % idle.tx.cfg.maxPay = 0 ∧
      exec (.fragment (message.take 4)) idle = .next (got (exec (.fragment (message.take 4)) idle)) :=
  ⟨by decide, by decide, by decide, eq_next_of_runs _ (by decide)⟩

theorem test_witness_SubmitIsFragmentThenAdmit :
    exec (.fragment message) idle = .next (got (exec (.fragment message) idle)) := eq_next_of_runs _ (by decide)

theorem test_witness_SubmitTransmitsWhatFits :
    busy.tx.cfg.Legal ∧ busy.tx.nextSeq.toNat < busy.tx.cfg.M ∧ busy.tx.cfg.bufDepth = none := by decide

/-- A window with room, and a full one. -/
theorem test_witness_AdmitMovesTheOldestPackets :
    let s := machine (sender small 4#8 0#8 [s1] [s2, s3] true) (receiver small 0#8)
    (s.tx.cfg.Legal ∧ s.tx.windowQueue.length ≤ s.tx.cfg.W) ∧
      busy.tx.cfg.Legal ∧ busy.tx.windowQueue.length ≤ busy.tx.cfg.W := by decide

/-- The window full, and the buffer empty. -/
theorem test_witness_SettledSenderAdmitsNothing :
    (bounded.tx.cfg.Legal ∧ bounded.tx.windowQueue.length = bounded.tx.cfg.W ∧ bounded.tx.cfg.bufDepth = some 1 ∧
      bounded.tx.bufferQueue.length ≤ 1) ∧ idle.tx.cfg.Legal ∧ idle.tx.bufferQueue.length = 0 := by decide

/-- Every branch: the checksum, the range, the guard, `gap = W`, and a duplicate. -/
theorem test_witness_AckinFollowsItsTests :
    (busy.tx.cfg.Legal ∧ s1.length = busy.tx.cfg.P) ∧
      classifyAck small 4#8 (List.replicate 8 0#8) = .dropCksum ∧
      classifyAck small 4#8 (encodePacket 8 0#8 5#8 []) = .dropRange ∧
      classifyAck tight 1#8 q3 = .dropGuard ∧ classifyAck small 4#8 s1 = .cumulative 2 ∧
      classifyAck small 4#8 s4 = .noChange ∧ classifyAck small 4#8 s2 = .noChange := by decide

/-- The guard at its edge, with `2W < M` and without, and at the sentinel. -/
theorem test_witness_GuardRejectsLateWraps :
    (small.Legal ∧ ackGuard small.M small.W 3 0 = true ∧ 3 < small.M ∧ 0 < small.M ∧ 2 * small.W < small.M) ∧
      (tight.Legal ∧ 3 < tight.M ∧ 1 < tight.M ∧ tight.M ≤ 2 * tight.W ∧ 1 < 3 ∧
        tight.M - tight.W ≤ subM tight.M 3 1 ∧ subM tight.M 3 1 ≤ tight.W) ∧
      4 = small.M - 1 := by decide

/-- The same sequence byte under different lengths and payloads (V-TX-3n). -/
theorem test_witness_AckinReadsOnlyValidityAndSequence :
    s0.length = s5.length ∧ verify s0 = verify s5 ∧ byteAt s0 1 = byteAt s5 1 := by decide

/-- PR3, fourth event: `gap = W`, the whole window. -/
theorem test_witness_CumulativeAckPopsTheFront :
    busy.tx.cfg.Legal ∧ s1.length = busy.tx.cfg.P ∧ WindowBounded busy.tx ∧ SequencesInRange busy.tx ∧ Numbered busy.tx ∧
      verify s1 = true ∧ seqOf s1 < busy.tx.cfg.M ∧
      ackGuard busy.tx.cfg.M busy.tx.cfg.W (seqOf s1) busy.tx.lastAck.toNat = false ∧
      0 < subM busy.tx.cfg.M (seqOf s1) busy.tx.lastAck.toNat ∧
      subM busy.tx.cfg.M (seqOf s1) busy.tx.lastAck.toNat ≤ busy.tx.cfg.W ∧
      subM busy.tx.cfg.M (seqOf s1) busy.tx.lastAck.toNat ≤ busy.tx.windowQueue.length := by decide

theorem test_witness_TimeoutRetransmitsTheWindow :
    busy.tx.cfg.Legal ∧ busy.tx.windowQueue ≠ [] ∧ idle.tx.cfg.Legal ∧ idle.tx.windowQueue = [] := by decide

theorem test_witness_TimeoutIsIdempotent : exec .timeout busy = .next (got (exec .timeout busy)) :=
  eq_next_of_runs _ (by decide)

/-- Each of the six operations, with something to transmit, and EXPIRE with nothing. -/
theorem test_witness_EveryTransmissionRearms :
    exec (.submit [1#8]) idle = .next (got (exec (.submit [1#8]) idle)) ∧
      exec .admitFromBuffer busy = .next (got (exec .admitFromBuffer busy)) ∧
      exec (.ackin s1) busy = .next (got (exec (.ackin s1) busy)) ∧
      exec (.packet .tx s1) busy = .next (got (exec (.packet .tx s1) busy)) ∧
      exec .timeout busy = .next (got (exec .timeout busy)) ∧ exec .expire busy = .next (got (exec .expire busy)) ∧
      let s := machine (sender small 4#8 3#8 [] [] true) (receiver small 4#8)
      s.tx.windowQueue = [] ∧ exec .expire s = .next (got (exec .expire s)) :=
  ⟨eq_next_of_runs _ (by decide), eq_next_of_runs _ (by decide), eq_next_of_runs _ (by decide),
    eq_next_of_runs _ (by decide), eq_next_of_runs _ (by decide), eq_next_of_runs _ (by decide), by decide,
    eq_next_of_runs _ (by decide)⟩

theorem test_witness_QueuedPacketsAreNeverAltered :
    busy.tx.nextSeq.toNat < busy.tx.cfg.M ∧ exec (.submit [1#8]) busy = .next (got (exec (.submit [1#8]) busy)) ∧
      exec (.ackin s1) busy = .next (got (exec (.ackin s1) busy)) :=
  ⟨by decide, eq_next_of_runs _ (by decide), eq_next_of_runs _ (by decide)⟩

/-- Accepted with the largest payload and with none; dropped for each of the three reasons. -/
theorem test_witness_PktinAcceptsOnlyTheExpectedPacket :
    (idle.rx.cfg.Legal ∧ s0.length = idle.rx.cfg.P) ∧ (byteAt s0 0).toNat ≤ idle.rx.cfg.P - 4 ∧
      classifyPkt small 0#8 s0 = .accept ∧ classifyPkt small 0#8 emptyPacket = .accept ∧
      classifyPkt small 0#8 (List.replicate 8 0#8) = .dropCksum ∧ classifyPkt small 0#8 s1 = .dropSeq ∧
      classifyPkt small 0#8 tooLong = .dropLen := by decide

theorem test_witness_AcceptedPacketIsNotAcknowledgedAgain :
    exec (.pktin s0) idle = .next (got (exec (.pktin s0) idle)) ∧ (got (exec (.pktin s0) idle)).rx.out ≠ idle.rx.out :=
  ⟨eq_next_of_runs _ (by decide), by decide⟩

/-- PR4 with PR3's packets: both packets of the window have been accepted. -/
theorem test_witness_LostFinalAckIsNeverRepaired :
    let s := machine (sender small 2#8 4#8 [s0, s1] [] true) (receiver small 2#8)
    s.tx.cfg.Legal ∧ s.rx.cfg = s.tx.cfg ∧ expireEnabled s = true ∧ s.tx.windowQueue ≠ [] ∧
      ∀ pkt ∈ s.tx.windowQueue, pkt.length = s.tx.cfg.P ∧ byteAt pkt 1 ≠ s.rx.expectedSeq := by decide

theorem test_witness_MessageIsDeliveredExactlyOnce :
    Paired idle ∧ SequencesInRange idle.tx ∧ exec (.fragment message) idle = .next (got (exec (.fragment message) idle)) :=
  ⟨by decide, by decide, eq_next_of_runs _ (by decide)⟩

theorem test_witness_ArmReplacesThePendingExpiry : busy.tx.cfg.Legal := by decide

/-- Armed, and Idle already. -/
theorem test_witness_CancelMakesTheTimerIdle :
    busy.tx.cfg.Legal ∧ busy.tx.tmrArmed = true ∧ idle.tx.cfg.Legal ∧ idle.tx.tmrArmed = false := by decide

theorem test_witness_QueryAnswersWhetherArmed : busy.tx.cfg.Legal := by decide

/-- Untimed; timed, at the deadline. -/
theorem test_witness_ExpireConsumesAndRetransmits :
    (busy.tx.cfg.Legal ∧ busy.tx.tmrArmed = true ∧ (busy.timing = .timed → busy.tx.tmrDeadline ≤ busy.now)) ∧
      (timedState 300).tx.cfg.Legal ∧ (timedState 300).tx.tmrArmed = true ∧ (timedState 300).timing = .timed ∧
      (timedState 300).tx.tmrDeadline ≤ (timedState 300).now := by decide

/-- Idle; timed, one tick before the deadline. -/
theorem test_witness_ExpireHasNoStepWhileNotEnabled :
    (idle.tx.cfg.Legal ∧ idle.tx.tmrArmed = false) ∧ (timedState 299).tx.cfg.Legal ∧ (timedState 299).timing = .timed ∧
      (timedState 299).now < (timedState 299).tx.tmrDeadline := by decide

/-- `busy` with an event whose operation changes both queues. -/
def ackEvent : State := withEvent busy (.present .tx .cmd (0x32#8 :: s1))

theorem test_witness_StepKeepsTimerArmedForWindow :
    TimerCovers ackEvent.tx ∧ selected ackEvent ≠ some .cancel ∧ step ackEvent = .next (got (step ackEvent)) :=
  ⟨by decide, by decide, eq_next_of_runs _ (by decide)⟩

theorem test_witness_XmitEmitsThePacket :
    idle.tx.cfg.Legal ∧ idle.rx.cfg.Legal ∧ s0.length = idle.tx.cfg.P ∧ s0.length = idle.rx.cfg.P := by decide

/-- The largest payload, and one byte more. -/
theorem test_witness_DeliverEmitsThePayload :
    idle.rx.cfg.Legal ∧ [1#8, 2#8, 3#8, 4#8].length ≤ idle.rx.cfg.P - 4 ∧
      idle.rx.cfg.P - 4 < [1#8, 2#8, 3#8, 4#8, 5#8].length := by decide

theorem test_witness_PacketIsOnPacketOfItsSide :
    busy.tx.cfg.Legal ∧ s1.length = busy.tx.cfg.P ∧ busy.rx.cfg.Legal ∧ s0.length = busy.rx.cfg.P := by decide

/-- RESET of either instance. -/
theorem test_witness_ResetTouchesOneInstance :
    ((withEvent busy (.reset .tx)).events = [{ delay := 0, input := .reset .tx }] ∧ (withEvent busy (.reset .tx)).tx.cfg.Legal) ∧
      (withEvent busy (.reset .rx)).events = [{ delay := 0, input := .reset .rx }] ∧
      (withEvent busy (.reset .rx)).rx.cfg.Legal := by decide

theorem test_witness_StepRunsTheDecodedOperation :
    ackEvent.events = [{ delay := 0, input := .present .tx .cmd (0x32#8 :: s1) }] ∧
      decodeEvent .tx .cmd (ackEvent.cfgOf .tx).P (0x32#8 :: s1) = .ok (.ackin s1) ∧
      (Instr.ackin s1).wf ackEvent.cfgOf = true := by decide

theorem test_witness_CoreDoesNothingOnItsOwn : idle.events = [] := by decide

/-- A code between two of the table, and the largest. -/
theorem test_witness_UnknownCodeIsRefused :
    (withEvent idle (.present .tx .cmd [0x34#8])).events = [{ delay := 0, input := .present .tx .cmd [0x34#8] }] ∧
      (0x34#8).toNat ∉ [0x10, 0x11, 0x12, 0x20, 0x30, 0x31, 0x32, 0x33, 0x40, 0x50, 0x51, 0x52, 0x53, 0x80, 0x81] ∧
      (0xFF#8).toNat ∉ [0x10, 0x11, 0x12, 0x20, 0x30, 0x31, 0x32, 0x33, 0x40, 0x50, 0x51, 0x52, 0x53, 0x80, 0x81] := by decide

/-- EXPIRE where it is enabled, and another operation. -/
theorem test_witness_EveryOperationIsTotal :
    Configured busy ∧ busy.tx.cfg.bufDepth = none ∧ Instr.expire.wf busy.cfgOf = true ∧ busy.tx.tmrArmed = true ∧
      busy.timing = .untimed ∧ (Instr.pktin s0).wf busy.cfgOf = true := by decide

/-- An odd packet size at the sender, a window too large at the receiver. -/
theorem test_witness_IllegalConfigurationIsRefused :
    ¬ ((fresh { small with P := 7 }).cfgOf (Instr.side .timeout)).Legal ∧
      ¬ ((fresh { small with W := 5 }).cfgOf (Instr.side (.pktin s0))).Legal := by decide

/-- One byte more and one less; ENCODE with each precondition broken. -/
theorem test_witness_WrongSizedOperandIsRefused :
    idle.tx.cfg.Legal ∧ idle.rx.cfg.Legal ∧ (0#8 :: s0).length ≠ idle.tx.cfg.P ∧ (s0.take 7).length ≠ idle.rx.cfg.P ∧
      (idle.cfgOf .tx).Legal ∧ (5#8).toNat > (idle.cfgOf .tx).P - 4 ∧ [1#8].length ≠ (2#8).toNat := by decide

/-- A length at the edge of the serialisation's second byte. -/
theorem test_witness_DecodeInvertsEncode :
    (Instr.submit (List.replicate 128 7#8)).wf (fun _ => small) = true ∧ (Instr.arm 16384).wf (fun _ => small) = true ∧
      (Instr.encode .rx 4#8 255#8 [1#8, 2#8, 3#8, 4#8]).wf (fun _ => small) = true := by decide

theorem test_witness_EncodeInvertsDecode :
    decodeEvent .tx .cmd 8 [0x50#8, 0x80#8, 0x80#8, 0x01#8] = .ok (.arm 16384) ∧
      decodeEvent .rx .wire 8 s0 = .ok (.packet .rx s0) := by decide

theorem test_witness_WindowNeverExceedsCapacity :
    WindowBounded ackEvent.tx ∧ step ackEvent = .next (got (step ackEvent)) := ⟨by decide, eq_next_of_runs _ (by decide)⟩

theorem test_witness_StepKeepsSoundness : Sound ackEvent ∧ step ackEvent = .next (got (step ackEvent)) :=
  ⟨by decide, eq_next_of_runs _ (by decide)⟩

theorem test_witness_StepKeepsSettled :
    WindowBounded ackEvent.tx ∧ Settled ackEvent.tx ∧ selected ackEvent = some (.ackin s1) ∧
      step ackEvent = .next (got (step ackEvent)) := ⟨by decide, by decide, by decide, eq_next_of_runs _ (by decide)⟩

theorem test_witness_StepKeepsNumbering :
    Sound ackEvent ∧ Numbered ackEvent.tx ∧ selected ackEvent = some (.ackin s1) ∧ AckHonest ackEvent.tx s1 ∧
      step ackEvent = .next (got (step ackEvent)) :=
  ⟨by decide, by decide, by decide, by decide, eq_next_of_runs _ (by decide)⟩

theorem test_witness_NumberingGivesConsecutiveFront :
    busy.tx.cfg.Legal ∧ SequencesInRange busy.tx ∧ Numbered busy.tx ∧ (outstanding busy.tx).length = 6 := by decide

theorem test_witness_QuiescentSenderStaysQuiet : idle.tx.cfg.Legal ∧ SenderQuiescent idle.tx := by decide

theorem test_witness_ConfigurationIsNeverWritten : step ackEvent = .next (got (step ackEvent)) :=
  eq_next_of_runs _ (by decide)

/-- An operation of each instance. -/
theorem test_witness_InstancesShareNoState :
    (exec (.ackin s1) busy = .next (got (exec (.ackin s1) busy)) ∧ (Instr.ackin s1).side = .tx) ∧
      exec (.pktin s0) busy = .next (got (exec (.pktin s0) busy)) ∧ (Instr.pktin s0).side = .rx :=
  ⟨⟨eq_next_of_runs _ (by decide), by decide⟩, eq_next_of_runs _ (by decide), by decide⟩

theorem test_witness_OperationsOfTwoInstancesCommute :
    (Instr.ackin s1).side = .tx ∧ (Instr.pktin s0).side = .rx ∧
      exec (.ackin s1) busy = .next (got (exec (.ackin s1) busy)) ∧
      exec (.pktin s0) busy = .next (got (exec (.pktin s0) busy)) :=
  ⟨by decide, by decide, eq_next_of_runs _ (by decide), eq_next_of_runs _ (by decide)⟩

/-- At the last sequence number, so that the next one wraps. -/
theorem test_witness_NextSeqIsAdvancedOnlyByFragmentation :
    let s := machine (sender small 4#8 3#8 [] [] false) (receiver small 4#8)
    s.tx.nextSeq.toNat < s.tx.cfg.M ∧ exec (.submit [1#8]) s = .next (got (exec (.submit [1#8]) s)) ∧
      exec .timeout s = .next (got (exec .timeout s)) :=
  ⟨by decide, eq_next_of_runs _ (by decide), eq_next_of_runs _ (by decide)⟩

theorem test_witness_LastAckIsWrittenOnlyByAcknowledgments :
    busy.tx.lastAck.toNat < busy.tx.cfg.M ∧ exec (.ackin s1) busy = .next (got (exec (.ackin s1) busy)) ∧
      (got (exec (.ackin s1) busy)).tx.lastAck ≠ busy.tx.lastAck := ⟨by decide, eq_next_of_runs _ (by decide), by decide⟩

/-- At the last sequence number, so that the next one wraps. -/
theorem test_witness_ExpectedSeqAdvancesPerAcceptedPacket :
    let s := machine (Sender.initial small) (receiver small 4#8)
    s.rx.expectedSeq.toNat < s.rx.cfg.M ∧ exec (.pktin s4) s = .next (got (exec (.pktin s4) s)) ∧
      (got (exec (.pktin s4) s)).rx.expectedSeq ≠ s.rx.expectedSeq ∧ (got (exec (.pktin s4) s)).rx.out ≠ s.rx.out :=
  ⟨by decide, eq_next_of_runs _ (by decide), by decide, by decide⟩

/-- PR3 after its first event and one accepted packet: all of the window but the newest. -/
def late : State := { busy with rx := receiver small 1#8 }

/-- Nothing of the window accepted. -/
theorem test_witness_RecoveryDeliversEverything :
    Sound busy ∧ Settled busy.tx ∧ Numbered busy.tx ∧ TimerCovers busy.tx ∧ busy.rx.cfg = busy.tx.cfg ∧
      2 * busy.tx.cfg.W < busy.tx.cfg.M ∧ HasAccepted busy 0 ∧ NewestNotYetAccepted busy 0 :=
  ⟨by decide, by decide, by decide, by decide, by decide, by decide, by decide, by decide⟩

/-- All of the window accepted but the newest packet. -/
theorem test_witness_RecoveryDeliversEverything_at_the_newest :
    Sound late ∧ Settled late.tx ∧ Numbered late.tx ∧ TimerCovers late.tx ∧ late.rx.cfg = late.tx.cfg ∧
      2 * late.tx.cfg.W < late.tx.cfg.M ∧ HasAccepted late 1 ∧ NewestNotYetAccepted late 1 :=
  ⟨by decide, by decide, by decide, by decide, by decide, by decide, by decide, by decide⟩

end Sys2Proof.Tests
end

section
/-! PROOFS of the family 00_scope.md: the refusal of an illegal configuration (O42), what no step writes (O54) and what
every step keeps (O48). The last two rest on one reading of `exec`, `exec_moves`: what an operation of a side can do, said
once; every later invariant can be derived from it. -/

namespace Sys2Proof.Proofs

open Sys2Proof.Machine Sys2Proof.Safety Sys2Proof.Laws

/-! ## The check on the configuration -/

theorem whenLegal_neg {c : Cfg} (h : ¬ c.Legal) (k : Outcome) : whenLegal c k = .refused .illegalConfiguration :=
  if_neg h

/-- Every operation begins with the check of its own side's configuration (U10). -/
theorem exec_eq_whenLegal (i : Instr) (s : State) : ∃ k, exec i s = whenLegal (s.cfgOf i.side) k := by
  cases i <;> exact ⟨_, rfl⟩

/-- Settles O42: the check of R10 stands in front of every meaning. -/
theorem illegalConfigurationIsRefused : Obligations.IllegalConfigurationIsRefused := by
  intro s i hillegal
  obtain ⟨k, hk⟩ := exec_eq_whenLegal i s
  rw [hk, whenLegal_neg hillegal]

/-! ## What a step can do -/

/-- What an operation or RESET can do to the sender at time `now`. All that writes only the trace, the answer and the timer
is one case, `record`. -/
inductive SenderMove (now : Time) (t : Sender) : Sender → Prop where
  | record (out : List Output) (result : Result) (armed : Bool) (deadline : Time) :
      SenderMove now t { t with out := out, result := result, tmrArmed := armed, tmrDeadline := deadline }
  | fragment (msg : List Byte) : SenderMove now t (t.fragment msg)
  | submit (msg : List Byte) : SenderMove now t (t.submit now msg)
  | admitFromBuffer : SenderMove now t (t.admitFromBuffer now)
  | ackin (pkt : Packet) : SenderMove now t (t.onAck now pkt)
  | reset : SenderMove now t t.reset

/-- What an operation or RESET can do to the receiver. -/
inductive ReceiverMove (r : Receiver) : Receiver → Prop where
  | record (out : List Output) (result : Result) : ReceiverMove r { r with out := out, result := result }
  | pktin (pkt : Packet) : ReceiverMove r (r.onPacket pkt)
  | reset : ReceiverMove r r.reset

/-- What one side can do to the machine: a move of its own half, the rest left as it is (R24). -/
def SideMove : Side → State → State → Prop
  | .tx, s, s' => ∃ t, SenderMove s.now s.tx t ∧ s' = { s with tx := t }
  | .rx, s, s' => ∃ r, ReceiverMove s.rx r ∧ s' = { s with rx := r }

theorem sideMove_answer (s : State) (v : Result) : ∀ sd, SideMove sd s (s.answer v sd)
  | .tx => ⟨_, .record s.tx.out v s.tx.tmrArmed s.tx.tmrDeadline, rfl⟩
  | .rx => ⟨_, .record s.rx.out v, rfl⟩

theorem sideMove_emitAt (s : State) (o : Output) : ∀ sd, SideMove sd s (s.emitAt o sd)
  | .tx => ⟨_, .record (s.tx.out ++ [o]) s.tx.result s.tx.tmrArmed s.tx.tmrDeadline, rfl⟩
  | .rx => ⟨_, .record (s.rx.out ++ [o]) s.rx.result, rfl⟩

theorem sideMove_receive (s : State) (pkt : Packet) : ∀ sd, SideMove sd s (s.receive pkt sd)
  | .tx => ⟨_, .ackin pkt, rfl⟩
  | .rx => ⟨_, .pktin pkt, rfl⟩

theorem sideMove_resetAt (s : State) : ∀ sd, SideMove sd s (s.resetAt sd)
  | .tx => ⟨_, .reset, rfl⟩
  | .rx => ⟨_, .reset, rfl⟩

/-- TIMEOUT writes the trace and the timer (R66). -/
theorem senderMove_onTimeout (now : Time) (t : Sender) : SenderMove now t (t.onTimeout now) := by
  rw [Sender.onTimeout, retransmit_eq]
  exact .record _ t.result _ _

/-- EXPIRE writes the trace and the timer (R77). -/
theorem senderMove_expire (now : Time) (t : Sender) : SenderMove now t (t.expire now) := by
  rw [Sender.expire, Sender.onTimeout, retransmit_eq]
  exact .record _ t.result _ _

/-- Everything an operation can do: a move of the side it belongs to (R2, R24). -/
theorem exec_moves {i : Instr} {s s' : State} (h : exec i s = .next s') : SideMove i.side s s' := by
  cases i with
  | cksum sd pkt => obtain ⟨-, -, rfl⟩ := exec_cksum_next.mp h; exact sideMove_answer s _ sd
  | encode sd len seq pay => obtain ⟨-, -, rfl⟩ := exec_encode_next.mp h; exact sideMove_answer s _ sd
  | verify sd pkt => obtain ⟨-, -, rfl⟩ := exec_verify_next.mp h; exact sideMove_answer s _ sd
  | fragment msg => obtain ⟨-, -, rfl⟩ := exec_fragment_next.mp h; exact ⟨_, .fragment msg, rfl⟩
  | submit msg => obtain ⟨-, -, rfl⟩ := exec_submit_next.mp h; exact ⟨_, .submit msg, rfl⟩
  | admitFromBuffer => obtain ⟨-, rfl⟩ := exec_admit_next.mp h; exact ⟨_, .admitFromBuffer, rfl⟩
  | ackin pkt => obtain ⟨-, -, rfl⟩ := exec_ackin_next.mp h; exact ⟨_, .ackin pkt, rfl⟩
  | timeout => obtain ⟨-, rfl⟩ := exec_timeout_next.mp h; exact ⟨_, senderMove_onTimeout _ _, rfl⟩
  | pktin pkt => obtain ⟨-, -, rfl⟩ := exec_pktin_next.mp h; exact ⟨_, .pktin pkt, rfl⟩
  | arm d => obtain ⟨-, rfl⟩ := exec_arm_next.mp h; exact ⟨_, .record s.tx.out s.tx.result true (s.now + d), rfl⟩
  | cancel =>
    obtain ⟨-, rfl⟩ := exec_cancel_next.mp h
    exact ⟨_, .record s.tx.out s.tx.result false s.tx.tmrDeadline, rfl⟩
  | query => obtain ⟨-, rfl⟩ := exec_query_next.mp h; exact sideMove_answer s _ .tx
  | expire => obtain ⟨-, -, rfl⟩ := exec_expire_next.mp h; exact ⟨_, senderMove_expire _ _, rfl⟩
  | xmit sd pkt => obtain ⟨-, -, rfl⟩ := exec_xmit_next.mp h; exact sideMove_emitAt s _ sd
  | deliver bytes => obtain ⟨-, -, rfl⟩ := exec_deliver_next.mp h; exact sideMove_emitAt s _ .rx
  | packet sd pkt => obtain ⟨-, -, rfl⟩ := exec_packet_next.mp h; exact sideMove_receive s pkt sd

/-- Everything a step can do: nothing, or take the next event and make a move of one side (R36, R82). -/
theorem step_moves {s s' : State} (h : step s = .next s') :
    s' = s ∨ ∃ e rest sd, SideMove sd (s.take e rest) s' := by
  obtain ⟨-, rfl⟩ | ⟨e, rest, sd, -, -, -, rfl⟩ | ⟨e, rest, _, _, _, i, -, -, -, hexec⟩ := step_cases h
  · exact .inl rfl
  · exact .inr ⟨e, rest, sd, sideMove_resetAt _ sd⟩
  · exact .inr ⟨e, rest, i.side, exec_moves hexec⟩

/-! ## What no step writes -/

@[simp] theorem fragment_cfg (msg : List Byte) (t : Sender) : (t.fragment msg).cfg = t.cfg := by
  obtain ⟨q, n, h⟩ := fragment_frame msg t
  rw [h]

@[simp] theorem admitFromBuffer_cfg (now : Time) (t : Sender) : (t.admitFromBuffer now).cfg = t.cfg := by
  rw [admit_eq]; rfl

@[simp] theorem submit_cfg (now : Time) (msg : List Byte) (t : Sender) : (t.submit now msg).cfg = t.cfg := by
  rw [Sender.submit, admitFromBuffer_cfg, fragment_cfg]

@[simp] theorem onAck_cfg (now : Time) (pkt : Packet) (t : Sender) : (t.onAck now pkt).cfg = t.cfg := by
  obtain h | h | ⟨-, -, -, -, h⟩ := onAck_cases now pkt t <;> simp [h]

@[simp] theorem onPacket_cfg (pkt : Packet) (r : Receiver) : (r.onPacket pkt).cfg = r.cfg := by
  obtain h | ⟨-, -, -, h⟩ := onPacket_cases pkt r <;> rw [h]

/-- No move of the sender writes its configuration (R9, R21). -/
theorem SenderMove.cfg_eq {now : Time} {t t' : Sender} (h : SenderMove now t t') : t'.cfg = t.cfg := by
  cases h with
  | record => rfl
  | fragment msg => exact fragment_cfg msg t
  | submit msg => exact submit_cfg now msg t
  | admitFromBuffer => exact admitFromBuffer_cfg now t
  | ackin pkt => exact onAck_cfg now pkt t
  | reset => rfl

/-- No move of the receiver writes its configuration (R9, R21). -/
theorem ReceiverMove.cfg_eq {r r' : Receiver} (h : ReceiverMove r r') : r'.cfg = r.cfg := by
  cases h with
  | record => rfl
  | pktin pkt => exact onPacket_cfg pkt r
  | reset => rfl

/-- A move of either side leaves both configurations, the treatment of time and the time as they are. -/
theorem SideMove.frame {sd : Side} {s s' : State} (h : SideMove sd s s') :
    s'.tx.cfg = s.tx.cfg ∧ s'.rx.cfg = s.rx.cfg ∧ s'.timing = s.timing ∧ s'.now = s.now := by
  cases sd with
  | tx => obtain ⟨t, hmove, rfl⟩ := h; exact ⟨hmove.cfg_eq, rfl, rfl, rfl⟩
  | rx => obtain ⟨r, hmove, rfl⟩ := h; exact ⟨rfl, hmove.cfg_eq, rfl, rfl⟩

/-- Settles O54: moves write neither constants nor time, and taking an event only adds its delay. -/
theorem configurationIsNeverWritten : Obligations.ConfigurationIsNeverWritten := by
  intro s s' hstep
  obtain rfl | ⟨e, rest, sd, hmove⟩ := step_moves hstep
  · exact ⟨rfl, rfl, rfl, le_rfl⟩
  · obtain ⟨htx, hrx, htiming, hnow⟩ := hmove.frame
    exact ⟨htx, hrx, htiming, hnow ▸ Nat.le_add_right s.now e.delay⟩

/-! ## What FRAGMENT makes is genuine (INV-P) -/

/-- A number below 256 is stored in a byte without loss. -/
theorem toNat_byte_of_lt {n : Nat} (h : n < 256) : (BitVec.ofNat 8 n).toNat = n := by
  rw [BitVec.toNat_ofNat, Nat.mod_eq_of_lt h]

/-- Two bytes written big-endian read back as the 16-bit value (R29). -/
theorem word16_bytes (c : Word16) :
    (BitVec.ofNat 8 (c.toNat / 256)).toNat * 256 + (BitVec.ofNat 8 c.toNat).toNat = c.toNat := by
  have := c.isLt
  simp only [BitVec.toNat_ofNat]; omega

/-- What ENCODE builds passes VERIFY, for every sequence byte: CKSUM does not read the field that holds it (R54). -/
theorem verify_encodePacket (P : Nat) (len seq : Byte) (pay : List Byte) (h : 4 + pay.length ≤ P) :
    verify (encodePacket P len seq pay) = true := by
  rw [encodePacket_eq P len seq pay h]
  simp only [verify, beq_iff_eq, cksOf, memRead_two, byteAt_succ, byteAt_zero, word16_bytes]
  rw [cksum_header _ _ _ _ 0#8 0#8]

@[simp] theorem lenOf_encodePacket {P : Nat} {len seq : Byte} {pay : List Byte} (h : 4 + pay.length ≤ P) :
    lenOf (encodePacket P len seq pay) = len.toNat := by
  rw [encodePacket_eq P len seq pay h]; rfl

@[simp] theorem seqOf_encodePacket {P : Nat} {len seq : Byte} {pay : List Byte} (h : 4 + pay.length ≤ P) :
    seqOf (encodePacket P len seq pay) = seq.toNat := by
  rw [encodePacket_eq P len seq pay h]; rfl

/-- Behind the payload ENCODE leaves zeros (R53). -/
theorem padding_encodePacket {P : Nat} {len seq : Byte} {pay : List Byte} (h : 4 + pay.length ≤ P) :
    (encodePacket P len seq pay).drop (HDR + pay.length) = List.replicate (P - 4 - pay.length) 0#8 := by
  rw [encodePacket_eq P len seq pay h, HDR, Nat.add_comm]
  simp

/-- ENCODE of a payload that is not empty, under a sequence number in the space, is a packet FRAGMENT could have made. -/
theorem encodePacket_genuine {c : Cfg} (hc : c.Legal) {len seq : Byte} {pay : List Byte} (hlen : len.toNat = pay.length)
    (hpos : 1 ≤ pay.length) (hmax : pay.length ≤ c.maxPay) (hseq : seq.toNat < c.M) :
    Genuine c (encodePacket c.P len seq pay) := by
  have hb := legal_bounds hc
  have hfit : 4 + pay.length ≤ c.P := by omega
  refine ⟨encodePacket_length _ _ _ _ hfit, verify_encodePacket _ _ _ _ hfit, ?_⟩
  rw [lenOf_encodePacket hfit, seqOf_encodePacket hfit, hlen, padding_encodePacket hfit]
  exact ⟨hpos, hmax, hseq, fun b hmem => List.eq_of_mem_replicate hmem⟩

/-- No chunk of a message is empty (R58). -/
theorem chunk_length_pos {c : Cfg} (hc : c.Legal) {msg : List Byte} {j : Nat} (hj : j < chunkCount c msg.length) :
    1 ≤ (chunk c msg j).length := by
  have hb := legal_bounds hc
  have hstart : (j + 1) * c.maxPay ≤ msg.length + c.maxPay - 1 := (Nat.le_div_iff_mul_le (by omega)).mp hj
  rw [Nat.succ_mul] at hstart
  simp only [chunk, List.length_take, List.length_drop]
  omega

/-- Every packet of a message is genuine (R25 INV-P, R58). -/
theorem packetsOf_genuine {c : Cfg} (hc : c.Legal) (s0 : Nat) (msg : List Byte) :
    ∀ pkt ∈ packetsOf c s0 msg, Genuine c pkt := by
  intro pkt hmem
  obtain ⟨j, hj, rfl⟩ := List.mem_map.mp hmem
  have hb := legal_bounds hc
  have hmax := chunk_length_le c msg j
  have hseq := addM_lt (M := c.M) (by omega) s0 j
  exact encodePacket_genuine hc (toNat_byte_of_lt (by omega)) (chunk_length_pos hc (List.mem_range.mp hj)) hmax
    (by rwa [toNat_byte_of_lt (by omega)])

/-! ## What every move keeps -/

/-- The sender's part of `Sound`: R10, INV-W, INV-R and INV-P. -/
structure SenderSound (t : Sender) : Prop where
  legal : t.cfg.Legal
  window : WindowBounded t
  range : SequencesInRange t
  genuine : QueuesGenuine t

/-- The receiver's part of `Sound`: R10 and INV-R. -/
structure ReceiverSound (r : Receiver) : Prop where
  legal : r.cfg.Legal
  range : ExpectedInRange r

theorem sound_iff {s : State} : Sound s ↔ SenderSound s.tx ∧ ReceiverSound s.rx := by
  constructor
  · rintro ⟨⟨htx, hrx⟩, hwin, hrange, hgen, hexp⟩
    exact ⟨⟨htx, hwin, hrange, hgen⟩, ⟨hrx, hexp⟩⟩
  · rintro ⟨⟨htx, hwin, hrange, hgen⟩, ⟨hrx, hexp⟩⟩
    exact ⟨⟨htx, hrx⟩, hwin, hrange, hgen, hexp⟩

/-- ADMIT takes no more than fits (R61): a bounded window stays bounded. -/
theorem windowBounded_admitted {t : Sender} (h : WindowBounded t) (now : Time) : WindowBounded (admitted now t) := by
  have hlen := admissible_length t
  change (t.windowQueue ++ admissible t).length ≤ t.cfg.W
  rw [List.length_append]
  omega

/-- ADMIT only moves the border between the queues: read as one list they are as before (R32, R61). -/
theorem outstanding_admitted (now : Time) (t : Sender) : outstanding (admitted now t) = outstanding t := by
  change t.windowQueue ++ admissible t ++ t.bufferQueue.drop (admissible t).length = t.windowQueue ++ t.bufferQueue
  rw [admissible_length, List.append_assoc, admissible, List.take_append_drop]

theorem SenderSound.admitFromBuffer {t : Sender} (h : SenderSound t) (now : Time) : SenderSound (t.admitFromBuffer now) := by
  rw [admit_eq]
  refine ⟨h.legal, windowBounded_admitted h.window now, h.range, fun pkt hmem => h.genuine pkt ?_⟩
  change pkt ∈ outstanding t
  rwa [← outstanding_admitted now t]

theorem SenderSound.fragment {t : Sender} (h : SenderSound t) (msg : List Byte) : SenderSound (t.fragment msg) := by
  obtain ⟨hlegal, hwin, hrange, hgen⟩ := h
  have hb := legal_bounds hlegal
  have hnext := addM_lt (M := t.cfg.M) (by omega) t.nextSeq.toNat (chunkCount t.cfg msg.length)
  rw [fragment_eq msg t hlegal hrange.1]
  refine ⟨hlegal, hwin, ⟨?_, hrange.2⟩, fun pkt hmem => ?_⟩
  · change (BitVec.ofNat 8 _).toNat < t.cfg.M
    rwa [toNat_byte_of_lt (by omega)]
  · change pkt ∈ t.windowQueue ++ (t.bufferQueue ++ packetsOf t.cfg t.nextSeq.toNat msg) at hmem
    rw [← List.append_assoc] at hmem
    exact (List.mem_append.mp hmem).elim (hgen pkt) (packetsOf_genuine hlegal _ msg pkt)

/-- The removal of R65 only drops packets, and the number it stores is in the space (D4). -/
theorem SenderSound.acknowledge {t : Sender} (h : SenderSound t) {ack : Byte} (hack : ack.toNat < t.cfg.M) (gap : Nat) :
    SenderSound (t.acknowledge ack gap) := by
  refine ⟨h.legal, (List.length_filter_le _ _).trans h.window, ⟨h.range.1, hack⟩, fun pkt hmem => h.genuine pkt ?_⟩
  exact List.mem_append.mpr ((List.mem_append.mp hmem).imp_left List.mem_of_mem_filter)

theorem SenderSound.onAck {t : Sender} (h : SenderSound t) (now : Time) (pkt : Packet) :
    SenderSound (t.onAck now pkt) := by
  obtain heq | heq | ⟨-, hseq, -, -, heq⟩ := onAck_cases now pkt t <;> rw [heq]
  · exact h
  · exact h.admitFromBuffer now
  · exact (h.acknowledge hseq _).admitFromBuffer now

theorem SenderSound.reset {t : Sender} (h : SenderSound t) : SenderSound t.reset := by
  have hb := legal_bounds h.legal
  refine ⟨h.legal, Nat.zero_le _, ⟨?_, ?_⟩, nofun⟩
  · change 0 < t.cfg.M
    omega
  · change (BitVec.ofNat 8 (t.cfg.M - 1)).toNat < t.cfg.M
    rw [toNat_byte_of_lt (by omega)]
    omega

/-- Every move of the sender keeps R10, INV-W, INV-R and INV-P. -/
theorem SenderMove.sound {now : Time} {t t' : Sender} (hmove : SenderMove now t t') (h : SenderSound t) :
    SenderSound t' := by
  cases hmove with
  | record => exact ⟨h.legal, h.window, h.range, h.genuine⟩
  | fragment msg => exact h.fragment msg
  | submit msg => exact (h.fragment msg).admitFromBuffer now
  | admitFromBuffer => exact h.admitFromBuffer now
  | ackin pkt => exact h.onAck now pkt
  | reset => exact h.reset

theorem ReceiverSound.onPacket {r : Receiver} (h : ReceiverSound r) (pkt : Packet) : ReceiverSound (r.onPacket pkt) := by
  have hb := legal_bounds h.legal
  obtain heq | ⟨-, -, -, heq⟩ := onPacket_cases pkt r <;> rw [heq]
  · exact h
  · refine ⟨h.legal, ?_⟩
    change (nextInSpace r.cfg r.expectedSeq).toNat < r.cfg.M
    rw [nextInSpace_toNat h.legal]
    exact addM_lt (by omega) _ _

/-- Every move of the receiver keeps R10 and INV-R. -/
theorem ReceiverMove.sound {r r' : Receiver} (hmove : ReceiverMove r r') (h : ReceiverSound r) : ReceiverSound r' := by
  have hb := legal_bounds h.legal
  cases hmove with
  | record => exact ⟨h.legal, h.range⟩
  | pktin pkt => exact h.onPacket pkt
  | reset => exact ⟨h.legal, show 0 < r.cfg.M by omega⟩

/-- A move of either side keeps the invariants of both. -/
theorem SideMove.sound {sd : Side} {s s' : State} (hmove : SideMove sd s s') (h : Sound s) : Sound s' := by
  rw [sound_iff] at h ⊢
  obtain ⟨htx, hrx⟩ := h
  cases sd with
  | tx => obtain ⟨t, hmove, rfl⟩ := hmove; exact ⟨hmove.sound htx, hrx⟩
  | rx => obtain ⟨r, hmove, rfl⟩ := hmove; exact ⟨htx, hmove.sound hrx⟩

/-- Settles O48: a step is a move of one side after taking an event, which touches neither side, and moves keep the
invariants. -/
theorem stepKeepsSoundness : Obligations.StepKeepsSoundness := by
  intro s s' hsound hstep
  obtain rfl | ⟨e, rest, sd, hmove⟩ := step_moves hstep
  · exact hsound
  · exact hmove.sound hsound

end Sys2Proof.Proofs
end

section
/-! PROOFS of the family 10_state.md: the isolation of the two sides (O55, O56), who writes the sequence registers (O57,
O58, O59), what happens to the queues (O14, O22, O47, O49), their numbering (O18, O50, O51), and the state after reset (O36,
O52). They rest on one more reading of `exec`, `exec_tx_op` and `exec_rx_op`: `exec_moves` with the operation kept beside the
move, and with the other side free. -/

namespace Sys2Proof.Proofs

open Sys2Proof.Machine Sys2Proof.Safety Sys2Proof.Laws

/-! ## What each operation does to its own side -/

/-- What the operation `i` does to the sender at time `now`: `SenderMove` with the operation named, where it matters. -/
inductive SenderOp (now : Time) (t : Sender) : Instr → Sender → Prop where
  | record (i : Instr) (out : List Output) (result : Result) (armed : Bool) (deadline : Time) :
      SenderOp now t i { t with out := out, result := result, tmrArmed := armed, tmrDeadline := deadline }
  | fragment (msg : List Byte) : SenderOp now t (.fragment msg) (t.fragment msg)
  | submit (msg : List Byte) : SenderOp now t (.submit msg) (t.submit now msg)
  | admitFromBuffer : SenderOp now t .admitFromBuffer (t.admitFromBuffer now)
  | ackin {i : Instr} (pkt : Packet) (hi : i = .ackin pkt ∨ i = .packet .tx pkt) : SenderOp now t i (t.onAck now pkt)

/-- What the operation `i` does to the receiver. -/
inductive ReceiverOp (r : Receiver) : Instr → Receiver → Prop where
  | record (i : Instr) (out : List Output) (result : Result) : ReceiverOp r i { r with out := out, result := result }
  | pktin {i : Instr} (pkt : Packet) (hi : i = .pktin pkt ∨ i = .packet .rx pkt) : ReceiverOp r i (r.onPacket pkt)

/-- An operation that answers a next state ran under a legal configuration of its own side (U10). -/
theorem exec_legal {i : Instr} {s s' : State} (h : exec i s = .next s') : (s.cfgOf i.side).Legal := by
  obtain ⟨k, hk⟩ := exec_eq_whenLegal i s
  exact (whenLegal_next.mp (hk ▸ h)).1

/-- TIMEOUT writes the trace and the timer, whichever operation runs it (R66, R77). -/
theorem senderOp_onTimeout (i : Instr) (now : Time) (t : Sender) (armed : Bool) :
    SenderOp now t i (Sender.onTimeout now { t with tmrArmed := armed }) := by
  rw [Sender.onTimeout, retransmit_eq]
  exact .record i _ t.result _ _

/-- An operation of the sender does what its name says to the sender, and the same whatever the receiver's state (R24). -/
theorem exec_tx_op {i : Instr} {s s' : State} (hi : i.side = .tx) (h : exec i s = .next s') :
    SenderOp s.now s.tx i s'.tx ∧ ∀ rx', exec i { s with rx := rx' } = .next { s' with rx := rx' } := by
  cases i with
  | cksum sd pkt =>
    obtain rfl : sd = .tx := hi
    obtain ⟨hc, hlen, rfl⟩ := exec_cksum_next.mp h
    exact ⟨.record _ _ _ _ _, fun _ => exec_cksum_next.mpr ⟨hc, hlen, rfl⟩⟩
  | encode sd len seq pay =>
    obtain rfl : sd = .tx := hi
    obtain ⟨hc, hwf, rfl⟩ := exec_encode_next.mp h
    exact ⟨.record _ _ _ _ _, fun _ => exec_encode_next.mpr ⟨hc, hwf, rfl⟩⟩
  | verify sd pkt =>
    obtain rfl : sd = .tx := hi
    obtain ⟨hc, hlen, rfl⟩ := exec_verify_next.mp h
    exact ⟨.record _ _ _ _ _, fun _ => exec_verify_next.mpr ⟨hc, hlen, rfl⟩⟩
  | fragment msg =>
    obtain ⟨hc, hroom, rfl⟩ := exec_fragment_next.mp h
    exact ⟨.fragment msg, fun _ => exec_fragment_next.mpr ⟨hc, hroom, rfl⟩⟩
  | submit msg =>
    obtain ⟨hc, hroom, rfl⟩ := exec_submit_next.mp h
    exact ⟨.submit msg, fun _ => exec_submit_next.mpr ⟨hc, hroom, rfl⟩⟩
  | admitFromBuffer =>
    obtain ⟨hc, rfl⟩ := exec_admit_next.mp h
    exact ⟨.admitFromBuffer, fun _ => exec_admit_next.mpr ⟨hc, rfl⟩⟩
  | ackin pkt =>
    obtain ⟨hc, hlen, rfl⟩ := exec_ackin_next.mp h
    exact ⟨.ackin pkt (.inl rfl), fun _ => exec_ackin_next.mpr ⟨hc, hlen, rfl⟩⟩
  | timeout =>
    obtain ⟨hc, rfl⟩ := exec_timeout_next.mp h
    exact ⟨senderOp_onTimeout _ s.now s.tx s.tx.tmrArmed, fun _ => exec_timeout_next.mpr ⟨hc, rfl⟩⟩
  | pktin pkt => cases hi
  | arm d =>
    obtain ⟨hc, rfl⟩ := exec_arm_next.mp h
    exact ⟨.record _ _ _ _ _, fun _ => exec_arm_next.mpr ⟨hc, rfl⟩⟩
  | cancel =>
    obtain ⟨hc, rfl⟩ := exec_cancel_next.mp h
    exact ⟨.record _ _ _ _ _, fun _ => exec_cancel_next.mpr ⟨hc, rfl⟩⟩
  | query =>
    obtain ⟨hc, rfl⟩ := exec_query_next.mp h
    exact ⟨.record _ _ _ _ _, fun _ => exec_query_next.mpr ⟨hc, rfl⟩⟩
  | expire =>
    obtain ⟨hc, hen, rfl⟩ := exec_expire_next.mp h
    exact ⟨senderOp_onTimeout _ s.now s.tx false, fun _ => exec_expire_next.mpr ⟨hc, hen, rfl⟩⟩
  | xmit sd pkt =>
    obtain rfl : sd = .tx := hi
    obtain ⟨hc, hlen, rfl⟩ := exec_xmit_next.mp h
    exact ⟨.record _ _ _ _ _, fun _ => exec_xmit_next.mpr ⟨hc, hlen, rfl⟩⟩
  | deliver bytes => cases hi
  | packet sd pkt =>
    obtain rfl : sd = .tx := hi
    obtain ⟨hc, hlen, rfl⟩ := exec_packet_next.mp h
    exact ⟨.ackin pkt (.inr rfl), fun _ => exec_packet_next.mpr ⟨hc, hlen, rfl⟩⟩

/-- An operation of the receiver does what its name says to the receiver, and the same whatever the sender's state (R24). -/
theorem exec_rx_op {i : Instr} {s s' : State} (hi : i.side = .rx) (h : exec i s = .next s') :
    ReceiverOp s.rx i s'.rx ∧ ∀ tx', exec i { s with tx := tx' } = .next { s' with tx := tx' } := by
  cases i with
  | cksum sd pkt =>
    obtain rfl : sd = .rx := hi
    obtain ⟨hc, hlen, rfl⟩ := exec_cksum_next.mp h
    exact ⟨.record _ _ _, fun _ => exec_cksum_next.mpr ⟨hc, hlen, rfl⟩⟩
  | encode sd len seq pay =>
    obtain rfl : sd = .rx := hi
    obtain ⟨hc, hwf, rfl⟩ := exec_encode_next.mp h
    exact ⟨.record _ _ _, fun _ => exec_encode_next.mpr ⟨hc, hwf, rfl⟩⟩
  | verify sd pkt =>
    obtain rfl : sd = .rx := hi
    obtain ⟨hc, hlen, rfl⟩ := exec_verify_next.mp h
    exact ⟨.record _ _ _, fun _ => exec_verify_next.mpr ⟨hc, hlen, rfl⟩⟩
  | pktin pkt =>
    obtain ⟨hc, hlen, rfl⟩ := exec_pktin_next.mp h
    exact ⟨.pktin pkt (.inl rfl), fun _ => exec_pktin_next.mpr ⟨hc, hlen, rfl⟩⟩
  | xmit sd pkt =>
    obtain rfl : sd = .rx := hi
    obtain ⟨hc, hlen, rfl⟩ := exec_xmit_next.mp h
    exact ⟨.record _ _ _, fun _ => exec_xmit_next.mpr ⟨hc, hlen, rfl⟩⟩
  | deliver bytes =>
    obtain ⟨hc, hlen, rfl⟩ := exec_deliver_next.mp h
    exact ⟨.record _ _ _, fun _ => exec_deliver_next.mpr ⟨hc, hlen, rfl⟩⟩
  | packet sd pkt =>
    obtain rfl : sd = .rx := hi
    obtain ⟨hc, hlen, rfl⟩ := exec_packet_next.mp h
    exact ⟨.pktin pkt (.inr rfl), fun _ => exec_packet_next.mpr ⟨hc, hlen, rfl⟩⟩
  | fragment | submit | admitFromBuffer | ackin | timeout | arm | cancel | query | expire => cases hi

/-- An operation of the sender writes the sender only. -/
theorem exec_tx_frame {i : Instr} {s s' : State} (hi : i.side = .tx) (h : exec i s = .next s') :
    s' = { s with tx := s'.tx } := by
  have hmove := exec_moves h
  rw [hi] at hmove
  obtain ⟨t, -, rfl⟩ := hmove
  rfl

/-- An operation of the receiver writes the receiver only. -/
theorem exec_rx_frame {i : Instr} {s s' : State} (hi : i.side = .rx) (h : exec i s = .next s') :
    s' = { s with rx := s'.rx } := by
  have hmove := exec_moves h
  rw [hi] at hmove
  obtain ⟨r, -, rfl⟩ := hmove
  rfl

/-- What any operation does to the sender; one of the receiver leaves it as it is. -/
theorem exec_senderOp {i : Instr} {s s' : State} (h : exec i s = .next s') : SenderOp s.now s.tx i s'.tx := by
  cases hi : i.side with
  | tx => exact (exec_tx_op hi h).1
  | rx => rw [exec_rx_frame hi h]; exact .record i _ _ _ _

/-- What any operation does to the receiver; one of the sender leaves it as it is. -/
theorem exec_receiverOp {i : Instr} {s s' : State} (h : exec i s = .next s') : ReceiverOp s.rx i s'.rx := by
  cases hi : i.side with
  | tx => rw [exec_tx_frame hi h]; exact .record i _ _
  | rx => exact (exec_rx_op hi h).1

/-- Everything a step can do to the sender: nothing, RESET, or what the selected operation does (R36, R82). -/
theorem step_sender {s s' : State} (h : step s = .next s') :
    s'.tx = s.tx ∨ s'.tx = s.tx.reset ∨ ∃ now i, selected s = some i ∧ SenderOp now s.tx i s'.tx := by
  obtain ⟨-, rfl⟩ | ⟨e, rest, sd, -, -, -, rfl⟩ | ⟨e, rest, sd, port, bytes, i, hev, hin, hdec, hexec⟩ := step_cases h
  · exact .inl rfl
  · cases sd with
    | tx => exact .inr (.inl rfl)
    | rx => exact .inl rfl
  · exact .inr (.inr ⟨_, i, by simp [selected, hev, hin, hdec], exec_senderOp (s := s.take e rest) hexec⟩)

/-! ## The two sides are isolated -/

/-- Settles O55: each operation reads and writes its own side only. -/
theorem instancesShareNoState : Obligations.InstancesShareNoState := by
  intro s s' i h
  have htx := fun hi : i.side = .tx => exec_tx_frame hi h
  have hrx := fun hi : i.side = .rx => exec_rx_frame hi h
  have henv : s'.now = s.now ∧ s'.timing = s.timing ∧ s'.events = s.events := by
    cases hi : i.side with
    | tx => rw [htx hi]; exact ⟨rfl, rfl, rfl⟩
    | rx => rw [hrx hi]; exact ⟨rfl, rfl, rfl⟩
  obtain ⟨hnow, htiming, hevents⟩ := henv
  exact ⟨hnow, htiming, hevents, fun hi => ⟨by rw [htx hi], (exec_tx_op hi h).2⟩,
    fun hi => ⟨by rw [hrx hi], (exec_rx_op hi h).2⟩⟩

/-- Settles O56: either order ends in the first operation's sender and the second's receiver. -/
theorem operationsOfTwoInstancesCommute : Obligations.OperationsOfTwoInstancesCommute := by
  intro s a b i j hi hj ha hb
  have hja := (exec_rx_op hj hb).2 a.tx
  have hib := (exec_tx_op hi ha).2 b.rx
  rw [← exec_tx_frame hi ha] at hja
  rw [← exec_rx_frame hj hb] at hib
  refine ⟨_, hja, hib.trans ?_⟩
  rw [exec_tx_frame hi ha, exec_rx_frame hj hb]

/-! ## What the sender's operations leave unchanged -/

@[simp] theorem admitFromBuffer_nextSeq (now : Time) (t : Sender) : (t.admitFromBuffer now).nextSeq = t.nextSeq := by
  rw [admit_eq]; rfl

@[simp] theorem admitFromBuffer_lastAck (now : Time) (t : Sender) : (t.admitFromBuffer now).lastAck = t.lastAck := by
  rw [admit_eq]; rfl

@[simp] theorem outstanding_admitFromBuffer (now : Time) (t : Sender) :
    outstanding (t.admitFromBuffer now) = outstanding t := by
  rw [admit_eq, outstanding_admitted]

@[simp] theorem fragment_lastAck (msg : List Byte) (t : Sender) : (t.fragment msg).lastAck = t.lastAck := by
  obtain ⟨q, n, h⟩ := fragment_frame msg t
  rw [h]

@[simp] theorem fragment_windowQueue (msg : List Byte) (t : Sender) : (t.fragment msg).windowQueue = t.windowQueue := by
  obtain ⟨q, n, h⟩ := fragment_frame msg t
  rw [h]

@[simp] theorem onAck_nextSeq (now : Time) (pkt : Packet) (t : Sender) : (t.onAck now pkt).nextSeq = t.nextSeq := by
  obtain h | h | ⟨-, -, -, -, h⟩ := onAck_cases now pkt t <;> simp [h]

/-- FRAGMENT appends the message's packets to what is outstanding (R57). -/
theorem outstanding_fragment {t : Sender} (hc : t.cfg.Legal) (hs : t.nextSeq.toNat < t.cfg.M) (msg : List Byte) :
    outstanding (t.fragment msg) = outstanding t ++ packetsOf t.cfg t.nextSeq.toNat msg := by
  rw [fragment_eq msg t hc hs, outstanding, outstanding, List.append_assoc]

/-! ## Who writes the sequence registers -/

/-- FRAGMENT advances `nextSeq` by one modulo `M` per packet (R12, R58). -/
theorem fragment_nextSeq_toNat {t : Sender} (hc : t.cfg.Legal) (hs : t.nextSeq.toNat < t.cfg.M) (msg : List Byte) :
    (t.fragment msg).nextSeq.toNat = addM t.cfg.M t.nextSeq.toNat (chunkCount t.cfg msg.length) := by
  have hb := legal_bounds hc
  have hlt := addM_lt (M := t.cfg.M) (by omega) t.nextSeq.toNat (chunkCount t.cfg msg.length)
  rw [fragment_eq msg t hc hs]
  exact toNat_byte_of_lt (by omega)

/-- SUBMIT advances `nextSeq` as its FRAGMENT does (R60). -/
theorem submit_nextSeq (now : Time) (msg : List Byte) (t : Sender) :
    (t.submit now msg).nextSeq = (t.fragment msg).nextSeq := by
  rw [Sender.submit, admitFromBuffer_nextSeq]

/-- Only FRAGMENT, alone or in SUBMIT, writes `nextSeq` (R12). -/
theorem SenderOp.nextSeq_cases {now : Time} {t t' : Sender} {i : Instr} (hop : SenderOp now t i t') :
    t'.nextSeq = t.nextSeq ∨ ∃ msg, i = .fragment msg ∨ i = .submit msg := by
  cases hop with
  | record => exact .inl rfl
  | fragment msg => exact .inr ⟨msg, .inl rfl⟩
  | submit msg => exact .inr ⟨msg, .inr rfl⟩
  | admitFromBuffer => exact .inl (admitFromBuffer_nextSeq now t)
  | ackin pkt => exact .inl (onAck_nextSeq now pkt t)

/-- What FRAGMENT, alone or in SUBMIT, leaves in `nextSeq`, and that it ran under a legal configuration. -/
theorem exec_fragments_nextSeq {i : Instr} {s s' : State} {msg : List Byte} (hi : i = .fragment msg ∨ i = .submit msg)
    (h : exec i s = .next s') : s.tx.cfg.Legal ∧ s'.tx.nextSeq = (s.tx.fragment msg).nextSeq := by
  rcases hi with rfl | rfl
  · obtain ⟨hc, -, rfl⟩ := exec_fragment_next.mp h
    exact ⟨hc, rfl⟩
  · obtain ⟨hc, -, rfl⟩ := exec_submit_next.mp h
    exact ⟨hc, submit_nextSeq _ _ _⟩

/-- Settles O57: `nextSeq` is what the message's FRAGMENT leaves, or as it was. -/
theorem nextSeqIsAdvancedOnlyByFragmentation : Obligations.NextSeqIsAdvancedOnlyByFragmentation := by
  refine ⟨rfl, fun s s' i hs h => ?_⟩
  have hadvance : ∀ msg, i = .fragment msg ∨ i = .submit msg →
      s'.tx.nextSeq.toNat = addM s.tx.cfg.M s.tx.nextSeq.toNat (chunkCount s.tx.cfg msg.length) := by
    intro msg hi
    obtain ⟨hc, hnext⟩ := exec_fragments_nextSeq hi h
    rw [hnext, fragment_nextSeq_toNat hc hs]
  obtain hsame | ⟨msg, hi⟩ := (exec_senderOp h).nextSeq_cases
  · exact ⟨hsame ▸ hs, hadvance, fun _ => hsame⟩
  · refine ⟨?_, hadvance, fun hnone => (hi.elim (hnone msg).1 (hnone msg).2).elim⟩
    rw [hadvance msg hi]
    exact addM_lt (by omega) _ _

/-- ACKIN leaves `lastAck` as it was, or puts the sequence byte of a packet there that passed VERIFY and the range check
(R62, D4). -/
theorem onAck_lastAck_cases (now : Time) (pkt : Packet) (t : Sender) :
    (t.onAck now pkt).lastAck = t.lastAck ∨
      (verify pkt = true ∧ seqOf pkt < t.cfg.M ∧ (t.onAck now pkt).lastAck = byteAt pkt 1) := by
  obtain h | h | ⟨hv, hseq, -, -, h⟩ := onAck_cases now pkt t
  · exact .inl (by rw [h])
  · exact .inl (by rw [h, admitFromBuffer_lastAck])
  · exact .inr ⟨hv, hseq, by rw [h, admitFromBuffer_lastAck, Sender.acknowledge_lastAck]⟩

/-- Only an acknowledgment writes `lastAck` (R13). -/
theorem SenderOp.lastAck_cases {now : Time} {t t' : Sender} {i : Instr} (hop : SenderOp now t i t') :
    t'.lastAck = t.lastAck ∨
      ∃ pkt, (i = .ackin pkt ∨ i = .packet .tx pkt) ∧ verify pkt = true ∧ seqOf pkt < t.cfg.M ∧
        t'.lastAck = byteAt pkt 1 := by
  cases hop with
  | record => exact .inl rfl
  | fragment msg => exact .inl (fragment_lastAck msg t)
  | submit msg => exact .inl (by rw [Sender.submit, admitFromBuffer_lastAck, fragment_lastAck])
  | admitFromBuffer => exact .inl (admitFromBuffer_lastAck now t)
  | ackin pkt hi => exact (onAck_lastAck_cases now pkt t).imp_right fun h => ⟨pkt, hi, h⟩

/-- Settles O58: `lastAck` is as it was, or the sequence byte of an acknowledgment in range. -/
theorem lastAckIsWrittenOnlyByAcknowledgments : Obligations.LastAckIsWrittenOnlyByAcknowledgments := by
  refine ⟨by decide, fun s s' i hs h => ?_⟩
  obtain hsame | ⟨pkt, hi, hv, hseq, hlast⟩ := (exec_senderOp h).lastAck_cases
  · exact ⟨hsame ▸ hs, fun hne => absurd hsame hne⟩
  · exact ⟨hlast ▸ hseq, fun _ => ⟨pkt, hi, hv, hlast⟩⟩

/-- The next sequence number in the space, without the modulus: it wraps from `S-2` to 0 (R14). -/
theorem nextInSpace_toNat_eq_ite {c : Cfg} (hc : c.Legal) {x : Byte} (hx : x.toNat < c.M) :
    (nextInSpace c x).toNat = if x.toNat = c.S - 2 then 0 else x.toNat + 1 := by
  have hb := legal_bounds hc
  have hM : c.M = c.S - 1 := rfl
  rw [nextInSpace_toNat hc, addM]
  split
  · rw [show x.toNat + 1 = c.M by omega, Nat.mod_self]
  · exact Nat.mod_eq_of_lt (by omega)

/-- A sequence register that advances changes. -/
theorem nextInSpace_ne {c : Cfg} (hc : c.Legal) {x : Byte} (hx : x.toNat < c.M) : nextInSpace c x ≠ x := by
  have hb := legal_bounds hc
  intro heq
  have hnat := nextInSpace_toNat_eq_ite hc hx
  rw [heq] at hnat
  have hM : c.M = c.S - 1 := rfl
  split at hnat <;> omega

/-- Only an accepted packet, delivered and echoed, writes `expectedSeq` (R14, R70). -/
theorem ReceiverOp.expectedSeq_cases {r r' : Receiver} {i : Instr} (hop : ReceiverOp r i r') :
    r'.expectedSeq = r.expectedSeq ∨
      ∃ pkt, (i = .pktin pkt ∨ i = .packet .rx pkt) ∧ r'.out = r.out ++ [.deliver (payOf pkt), .xmit pkt] ∧
        r'.expectedSeq = nextInSpace r.cfg r.expectedSeq := by
  cases hop with
  | record => exact .inl rfl
  | pktin pkt hi =>
    obtain heq | ⟨-, -, -, heq⟩ := onPacket_cases pkt r
    · exact .inl (by rw [heq])
    · exact .inr ⟨pkt, hi, by rw [heq], by rw [heq]⟩

/-- A PKTIN that emits has accepted its packet, and advances `expectedSeq` (R70). -/
theorem onPacket_emits {pkt : Packet} {r : Receiver} (hout : (r.onPacket pkt).out ≠ r.out) :
    (r.onPacket pkt).expectedSeq = nextInSpace r.cfg r.expectedSeq := by
  obtain heq | ⟨-, -, -, heq⟩ := onPacket_cases pkt r
  · exact absurd (congrArg Receiver.out heq) hout
  · rw [heq]

/-- Settles O59: `expectedSeq` is as it was, or PKTIN accepted, delivered and echoed a packet and advanced it. -/
theorem expectedSeqAdvancesPerAcceptedPacket : Obligations.ExpectedSeqAdvancesPerAcceptedPacket := by
  refine ⟨rfl, fun s s' i hs h => ?_⟩
  have hpktin : ∀ pkt, i = .pktin pkt → s'.rx.out ≠ s.rx.out → s'.rx.expectedSeq ≠ s.rx.expectedSeq := by
    rintro pkt rfl hout
    obtain ⟨hc, -, rfl⟩ := exec_pktin_next.mp h
    exact ne_of_eq_of_ne (onPacket_emits hout) (nextInSpace_ne hc hs)
  obtain hsame | ⟨pkt, hi, hout, hnext⟩ := (exec_receiverOp h).expectedSeq_cases
  · exact ⟨hsame ▸ hs, fun hne => absurd hsame hne, hpktin⟩
  · have hc : s.rx.cfg.Legal := by rcases hi with rfl | rfl <;> exact exec_legal h
    have hval := hnext ▸ nextInSpace_toNat_eq_ite hc hs
    refine ⟨?_, fun _ => ⟨pkt, hi, hout, hval⟩, hpktin⟩
    rw [hnext, nextInSpace_toNat hc]
    exact addM_lt (by omega) _ _

/-! ## The queues -/

/-- The removal of R65 takes packets from the window only. -/
theorem mem_outstanding_acknowledge {ack : Byte} {gap : Nat} {t : Sender} {q : Packet} :
    q ∈ outstanding (t.acknowledge ack gap) ↔
      (q ∈ t.windowQueue ∧ acknowledged t.cfg.M t.lastAck.toNat gap q = false) ∨ q ∈ t.bufferQueue := by
  simp [outstanding]

/-- ACKIN alters no packet and removes none but from the window (R18, R67). -/
theorem mem_outstanding_onAck (now : Time) (pkt : Packet) (t : Sender) :
    (∀ q ∈ outstanding (t.onAck now pkt), q ∈ outstanding t) ∧
      ∀ q ∈ outstanding t, q ∈ outstanding (t.onAck now pkt) ∨ q ∈ t.windowQueue := by
  obtain h | h | ⟨-, -, -, -, h⟩ := onAck_cases now pkt t <;> rw [h]
  · exact ⟨fun _ => id, fun _ => .inl⟩
  · rw [outstanding_admitFromBuffer]
    exact ⟨fun _ => id, fun _ => .inl⟩
  · simp only [outstanding_admitFromBuffer, mem_outstanding_acknowledge]
    exact ⟨fun q hq => List.mem_append.mpr (hq.imp_left And.left),
      fun q hq => (List.mem_append.mp hq).symm.imp .inr id⟩

/-- What an operation leaves of the two queues read as one list: all of it, all of it with what FRAGMENT appends, or what
ACKIN leaves. -/
theorem SenderOp.outstanding_cases {now : Time} {t t' : Sender} {i : Instr} (hop : SenderOp now t i t') :
    outstanding t' = outstanding t ∨
      (∃ msg, (i = .fragment msg ∨ i = .submit msg) ∧ outstanding t' = outstanding (t.fragment msg)) ∨
      ∃ pkt, (i = .ackin pkt ∨ i = .packet .tx pkt) ∧ t' = t.onAck now pkt := by
  cases hop with
  | record => exact .inl rfl
  | fragment msg => exact .inr (.inl ⟨msg, .inl rfl, rfl⟩)
  | submit msg => exact .inr (.inl ⟨msg, .inr rfl, outstanding_admitFromBuffer now _⟩)
  | admitFromBuffer => exact .inl (outstanding_admitFromBuffer now t)
  | ackin pkt hi => exact .inr (.inr ⟨pkt, hi, rfl⟩)

/-- Settles O22: FRAGMENT and SUBMIT append to the queues read as one list, ACKIN takes from the window, and every other
operation leaves that list as it is. -/
theorem queuedPacketsAreNeverAltered : Obligations.QueuedPacketsAreNeverAltered := by
  intro s s' i hs h
  obtain heq | ⟨msg, hi, heq⟩ | ⟨pkt, hi, heq⟩ := (exec_senderOp h).outstanding_cases
  · rw [heq]
    exact ⟨fun _ => .inl, fun _ => .inl⟩
  · have hc : s.tx.cfg.Legal := (exec_fragments_nextSeq hi h).1
    rw [heq, outstanding_fragment hc hs]
    exact ⟨fun q hq => (List.mem_append.mp hq).imp_right fun hq => ⟨msg, hi, hq⟩,
      fun q hq => .inl (List.mem_append_left _ hq)⟩
  · obtain ⟨hkept, hleft⟩ := mem_outstanding_onAck s.now pkt s.tx
    rw [heq]
    exact ⟨fun q hq => .inl (hkept q hq), fun q hq => (hleft q hq).imp_right fun hw => ⟨hw, pkt, hi⟩⟩

/-- The removal of R65 only shortens the window. -/
theorem windowBounded_acknowledge {t : Sender} (h : WindowBounded t) (ack : Byte) (gap : Nat) :
    WindowBounded (t.acknowledge ack gap) := (List.length_filter_le _ _).trans h

theorem windowBounded_admitFromBuffer {t : Sender} (h : WindowBounded t) (now : Time) :
    WindowBounded (t.admitFromBuffer now) := by
  rw [admit_eq]
  exact windowBounded_admitted h now

theorem windowBounded_fragment {t : Sender} (h : WindowBounded t) (msg : List Byte) :
    WindowBounded (t.fragment msg) := by
  rw [WindowBounded, fragment_windowQueue, fragment_cfg]
  exact h

/-- Every move of the sender keeps INV-W (R17), whatever else holds. -/
theorem SenderMove.windowBounded {now : Time} {t t' : Sender} (hmove : SenderMove now t t') (h : WindowBounded t) :
    WindowBounded t' := by
  cases hmove with
  | record => exact h
  | fragment msg => exact windowBounded_fragment h msg
  | submit msg => exact windowBounded_admitFromBuffer (windowBounded_fragment h msg) now
  | admitFromBuffer => exact windowBounded_admitFromBuffer h now
  | ackin pkt =>
    obtain heq | heq | ⟨-, -, -, -, heq⟩ := onAck_cases now pkt t <;> rw [heq]
    · exact h
    · exact windowBounded_admitFromBuffer h now
    · exact windowBounded_admitFromBuffer (windowBounded_acknowledge h _ _) now
  | reset => exact Nat.zero_le _

/-- Settles O47: no move of the sender overfills the window, and one of the receiver does not touch it. -/
theorem windowNeverExceedsCapacity : Obligations.WindowNeverExceedsCapacity := by
  refine ⟨by decide, fun s s' hwin hstep => ?_⟩
  obtain rfl | ⟨e, rest, sd, hmove⟩ := step_moves hstep
  · exact hwin
  · cases sd with
    | tx => obtain ⟨t, hmove, rfl⟩ := hmove; exact hmove.windowBounded hwin
    | rx => obtain ⟨r, -, rfl⟩ := hmove; exact hwin

/-- ADMIT stops only at a full window or an empty buffer (INV-A, R61). -/
theorem settled_admitFromBuffer {t : Sender} (h : WindowBounded t) (now : Time) : Settled (t.admitFromBuffer now) := by
  have hlen := admissible_length t
  rw [admit_eq]
  change (t.windowQueue ++ admissible t).length = t.cfg.W ∨ (t.bufferQueue.drop (admissible t).length).length = 0
  rw [List.length_append, List.length_drop]
  omega

/-- Every operation but FRAGMENT by itself keeps INV-A: what moves a packet ends with ADMIT (R25). -/
theorem SenderOp.settled {now : Time} {t t' : Sender} {i : Instr} (hop : SenderOp now t i t') (hwin : WindowBounded t)
    (h : Settled t) (hi : ∀ msg, i ≠ .fragment msg) : Settled t' := by
  cases hop with
  | record => exact h
  | fragment msg => exact absurd rfl (hi msg)
  | submit msg => exact settled_admitFromBuffer (windowBounded_fragment hwin msg) now
  | admitFromBuffer => exact settled_admitFromBuffer hwin now
  | ackin pkt =>
    obtain heq | heq | ⟨-, -, -, -, heq⟩ := onAck_cases now pkt t <;> rw [heq]
    · exact h
    · exact settled_admitFromBuffer hwin now
    · exact settled_admitFromBuffer (windowBounded_acknowledge hwin _ _) now

/-- Settles O49: RESET empties the buffer, and every operation the step can select keeps INV-A. -/
theorem stepKeepsSettled : Obligations.StepKeepsSettled := by
  intro s s' hwin hset hsel hstep
  obtain heq | heq | ⟨now, i, hi, hop⟩ := step_sender hstep
  · rw [heq]; exact hset
  · rw [heq]; exact .inr rfl
  · exact hop.settled hwin hset fun msg hfrag => hsel msg (hfrag ▸ hi)

/-- Where INV-A holds, ADMIT finds nothing to move. -/
theorem admitFromBuffer_of_settled {t : Sender} (h : Settled t) (now : Time) : t.admitFromBuffer now = t := by
  have hlen := admissible_length t
  rw [admit_eq, admitted_of_empty now t (List.length_eq_zero_iff.mp (by omega))]

/-- A buffer within `BUF_DEPTH` has room for the empty message, which makes no packet (U6, R58). -/
theorem roomFor_zero {t : Sender} (hc : t.cfg.Legal)
    (hdepth : ∀ depth, t.cfg.bufDepth = some depth → t.bufferQueue.length ≤ depth) : roomFor t 0 = true := by
  unfold roomFor
  split
  · rfl
  · rename_i depth hsome
    rw [chunkCount_zero hc, decide_eq_true_iff]
    exact hdepth depth hsome

/-- Settles O14: the packets ADMIT could move are none, and the empty message adds none. -/
theorem settledSenderAdmitsNothing : Obligations.SettledSenderAdmitsNothing := by
  intro s hc hset
  have hadmit := admitFromBuffer_of_settled hset s.now
  refine ⟨exec_admit_next.mpr ⟨hc, by rw [hadmit]⟩, fun hdepth => exec_submit_next.mpr ⟨hc, roomFor_zero hc hdepth, ?_⟩⟩
  rw [Sender.submit, fragment_nil, hadmit]

/-! ## The numbering of the outstanding packets -/

/-- A list of values written by position, read position by position. -/
theorem map_eq_map_range_iff {α β : Type} {f : α → β} {g : Nat → β} {l : List α} :
    l.map f = (List.range l.length).map g ↔ ∀ j a, l[j]? = some a → f a = g j := by
  constructor
  · intro h j a hj
    have hlt := (List.getElem?_eq_some_iff.mp hj).1
    have hpos : (l.map f)[j]? = ((List.range l.length).map g)[j]? := by rw [h]
    simpa only [List.getElem?_map, hj, List.getElem?_range hlt, Option.map_some, Option.some.injEq] using hpos
  · intro h
    refine List.ext_getElem (by simp) fun j hj _ => ?_
    rw [List.length_map] at hj
    simpa using h j l[j] (List.getElem?_eq_getElem hj)

/-- `Numbered`, position by position: packet `j` has sequence number `lastAck +M (1 + j)`. -/
theorem numbered_iff {t : Sender} :
    Numbered t ↔
      (∀ j q, (outstanding t)[j]? = some q → seqOf q = addM t.cfg.M t.lastAck.toNat (1 + j)) ∧
        t.nextSeq.toNat = addM t.cfg.M t.lastAck.toNat (1 + (outstanding t).length) :=
  and_congr_left' map_eq_map_range_iff

/-- The window is the front part of what is outstanding, so it is numbered from `lastAck +M 1` on too. -/
theorem seqOf_window {t : Sender} (h : Numbered t) {j : Nat} {q : Packet} (hj : t.windowQueue[j]? = some q) :
    seqOf q = addM t.cfg.M t.lastAck.toNat (1 + j) := by
  refine (numbered_iff.mp h).1 j q ?_
  rw [outstanding, List.getElem?_append_left (List.getElem?_eq_some_iff.mp hj).1, hj]

/-- The way back over one. -/
theorem subM_addM_one {M a : Nat} (hM : 1 < M) (ha : a < M) : subM M (addM M a 1) 1 = a := by
  rw [addM, Nat.add_comm]
  exact subM_addM hM ha

/-- Settles O51: neighbours of the numbering differ by one, and its ends are `lastAck +M 1` and `nextSeq -M 1`. -/
theorem numberingGivesConsecutiveFront : Obligations.NumberingGivesConsecutiveFront := by
  intro t hc hrange hnum
  have hb := legal_bounds hc
  obtain ⟨hseq, hnext⟩ := numbered_iff.mp hnum
  refine ⟨⟨fun j p q hp hq => ?_, fun p hp => ?_⟩, fun p hp => ?_⟩
  · rw [hseq j p hp, hseq (j + 1) q hq, addM_assoc, Nat.add_assoc]
  · rw [List.getLast?_eq_getElem?] at hp
    have hpos : 1 ≤ (outstanding t).length := by
      have := (List.getElem?_eq_some_iff.mp hp).1
      omega
    rw [hseq _ p hp, hnext, Nat.add_sub_cancel' hpos, Nat.add_comm 1, ← addM_assoc,
      subM_addM_one (by omega) (addM_lt (by omega) _ _)]
  · rw [List.head?_eq_getElem?] at hp
    exact seqOf_window hnum hp

/-- Packet `j` of a message has sequence number `s0 +M j` (R58). -/
theorem seqOf_packetsOf {c : Cfg} (hc : c.Legal) {s0 j : Nat} {msg : List Byte} {q : Packet}
    (hj : (packetsOf c s0 msg)[j]? = some q) : seqOf q = addM c.M s0 j := by
  have hb := legal_bounds hc
  have hfit := chunk_length_le c msg j
  have hlt := addM_lt (M := c.M) (by omega) s0 j
  simp only [packetsOf, List.getElem?_map, Option.map_eq_some_iff, List.getElem?_eq_some_iff, List.getElem_range] at hj
  obtain ⟨_, ⟨-, rfl⟩, rfl⟩ := hj
  rw [packetOf, seqOf_encodePacket (by omega), toNat_byte_of_lt (by omega)]

/-- FRAGMENT continues the numbering at `nextSeq` (R57). -/
theorem numbered_fragment {t : Sender} (h : Numbered t) (hs : SenderSound t) (msg : List Byte) :
    Numbered (t.fragment msg) := by
  obtain ⟨hseq, hnext⟩ := numbered_iff.mp h
  rw [numbered_iff, outstanding_fragment hs.legal hs.range.1, fragment_nextSeq_toNat hs.legal hs.range.1, fragment_cfg,
    fragment_lastAck, hnext, addM_assoc, List.length_append, packetsOf_length, Nat.add_assoc]
  refine ⟨fun j q hj => ?_, rfl⟩
  rcases Nat.lt_or_ge j (outstanding t).length with hlt | hge
  · rw [List.getElem?_append_left hlt] at hj
    exact hseq j q hj
  · rw [List.getElem?_append_right hge] at hj
    rw [seqOf_packetsOf hs.legal hj, addM_assoc, Nat.add_assoc, Nat.add_sub_cancel' hge]

/-- ADMIT does not touch the numbering: it writes neither register and leaves the outstanding packets in order (R61). -/
theorem numbered_admitFromBuffer {t : Sender} (h : Numbered t) (now : Time) : Numbered (t.admitFromBuffer now) := by
  rw [Numbered, outstanding_admitFromBuffer, admitFromBuffer_cfg, admitFromBuffer_lastAck, admitFromBuffer_nextSeq]
  exact h

/-- What a filter keeps, when it drops exactly the first `k` positions. -/
theorem filter_eq_drop {α : Type} {p : α → Bool} {l : List α} {k : Nat}
    (h : ∀ j a, l[j]? = some a → p a = decide (k ≤ j)) : l.filter p = l.drop k := by
  induction l generalizing k with
  | nil => simp
  | cons a l ih =>
    have ha := h 0 a rfl
    cases k with
    | zero =>
      refine List.filter_eq_self.mpr fun b hb => ?_
      obtain ⟨j, hj⟩ := List.mem_iff_getElem?.mp hb
      simpa using h j b hj
    | succ k =>
      rw [List.filter_cons_of_neg (by simp [ha]), List.drop_succ_cons]
      exact ih fun j b hj => by simpa using h (j + 1) b hj

/-- The membership test of R65 on a packet of the window: position `j` is acknowledged exactly if it is one of the first
`gap`, because the window is too short for its numbers to come round again (`W < M`, R10). -/
theorem acknowledged_of_window {t : Sender} (hc : t.cfg.Legal) (hwin : WindowBounded t) (hlast : t.lastAck.toNat < t.cfg.M)
    (h : Numbered t) {j : Nat} {q : Packet} (hj : t.windowQueue[j]? = some q) (gap : Nat) :
    acknowledged t.cfg.M t.lastAck.toNat gap q = decide (j < gap) := by
  have hb := legal_bounds hc
  have hlt := (List.getElem?_eq_some_iff.mp hj).1
  have hdist : subM t.cfg.M (seqOf q) t.lastAck.toNat = 1 + j := by
    rw [seqOf_window h hj]
    exact subM_addM hlast (by omega)
  simp [acknowledged, hdist, Nat.add_comm 1 j]

/-- The removal by sequence number is a removal from the front (R65 (b)). -/
theorem acknowledge_eq_drop {t : Sender} (hc : t.cfg.Legal) (hwin : WindowBounded t) (hlast : t.lastAck.toNat < t.cfg.M)
    (h : Numbered t) (ack : Byte) (gap : Nat) :
    t.acknowledge ack gap = { t with windowQueue := t.windowQueue.drop gap, lastAck := ack } := by
  rw [Sender.acknowledge, filter_eq_drop (k := gap)]
  intro j q hj
  rw [acknowledged_of_window hc hwin hlast h hj, ← decide_not]
  simp only [Nat.not_lt]

/-- After a cumulative acknowledgment of packets that are in the window, the numbering starts behind them (R65, R96). -/
theorem numbered_acknowledge {t : Sender} (h : Numbered t) (hs : SenderSound t) {ack : Byte} (hack : ack.toNat < t.cfg.M)
    (hhonest : subM t.cfg.M ack.toNat t.lastAck.toNat ≤ t.windowQueue.length) :
    Numbered (t.acknowledge ack (subM t.cfg.M ack.toNat t.lastAck.toNat)) := by
  obtain ⟨hseq, hnext⟩ := numbered_iff.mp h
  have hgap := addM_subM hack hs.range.2
  rw [acknowledge_eq_drop hs.legal hs.window hs.range.2 h]
  generalize subM t.cfg.M ack.toNat t.lastAck.toNat = gap at hhonest hgap ⊢
  have hlen : gap ≤ (outstanding t).length := by rw [outstanding, List.length_append]; omega
  have hout : outstanding { t with windowQueue := t.windowQueue.drop gap, lastAck := ack } = (outstanding t).drop gap :=
    (List.drop_append_of_le_length hhonest).symm
  rw [numbered_iff, hout, List.length_drop, ← hgap]
  refine ⟨fun j q hj => ?_, ?_⟩
  · rw [List.getElem?_drop] at hj
    rw [hseq _ q hj, addM_assoc, Nat.add_left_comm]
  · rw [addM_assoc, Nat.add_left_comm, Nat.add_sub_cancel' hlen, hnext]

/-- ACKIN keeps the numbering under E-ACK (R96). -/
theorem numbered_onAck {t : Sender} (h : Numbered t) (hs : SenderSound t) {pkt : Packet} (hhonest : AckHonest t pkt)
    (now : Time) : Numbered (t.onAck now pkt) := by
  obtain heq | heq | ⟨hv, hseq, -, hW, heq⟩ := onAck_cases now pkt t <;> rw [heq]
  · exact h
  · exact numbered_admitFromBuffer h now
  · exact numbered_admitFromBuffer (numbered_acknowledge h hs (ack := byteAt pkt 1) hseq (hhonest hv hseq hW)) now

/-- Nothing is outstanding after RESET, and `nextSeq`, 0, is `(M - 1) +M 1` (R91, D3). -/
theorem numbered_initial {c : Cfg} (hc : c.Legal) : Numbered (Sender.initial c) := by
  have hb := legal_bounds hc
  refine ⟨rfl, ?_⟩
  change 0 = addM c.M (BitVec.ofNat 8 (c.M - 1)).toNat 1
  rw [toNat_byte_of_lt (by omega), addM, Nat.sub_add_cancel (by omega), Nat.mod_self]

/-- Every operation keeps the numbering under E-ACK. -/
theorem SenderOp.numbered {now : Time} {t t' : Sender} {i : Instr} (hop : SenderOp now t i t') (hs : SenderSound t)
    (hhonest : AcksHonest t i) (h : Numbered t) : Numbered t' := by
  cases hop with
  | record => exact h
  | fragment msg => exact numbered_fragment h hs msg
  | submit msg => exact numbered_admitFromBuffer (numbered_fragment h hs msg) now
  | admitFromBuffer => exact numbered_admitFromBuffer h now
  | ackin pkt hi =>
    have hpkt : AckHonest t pkt := by rcases hi with rfl | rfl <;> exact hhonest
    exact numbered_onAck h hs hpkt now

/-- Settles O50: RESET starts the numbering afresh, and every operation keeps it under E-ACK. -/
theorem stepKeepsNumbering : Obligations.StepKeepsNumbering := by
  intro s s' hsound hnum hhonest hstep
  have hs := (sound_iff.mp hsound).1
  obtain heq | heq | ⟨now, i, hi, hop⟩ := step_sender hstep
  · rw [heq]; exact hnum
  · rw [heq]; exact numbered_initial hs.legal
  · exact hop.numbered hs (hhonest i hi) hnum

/-- An acknowledgment that passes every test is cumulative (R62). -/
theorem onAck_cumulative {t : Sender} {pkt : Packet} (hv : verify pkt = true) (hseq : seqOf pkt < t.cfg.M)
    (hguard : ackGuard t.cfg.M t.cfg.W (seqOf pkt) t.lastAck.toNat = false)
    (hpos : 0 < subM t.cfg.M (seqOf pkt) t.lastAck.toNat) (hW : subM t.cfg.M (seqOf pkt) t.lastAck.toNat ≤ t.cfg.W)
    (now : Time) :
    t.onAck now pkt =
      (t.acknowledge (byteAt pkt 1) (subM t.cfg.M (seqOf pkt) t.lastAck.toNat)).admitFromBuffer now := by
  have hclass : classifyAck t.cfg t.lastAck pkt = .cumulative (subM t.cfg.M (seqOf pkt) t.lastAck.toNat) := by
    simp [classifyAck, hv, Nat.not_le.mpr hseq, hguard, hpos, hW]
  simp [Sender.onAck, hclass]

/-- Settles O18: the test by sequence number picks the first `gap` packets of the window, which are numbered from
`lastAck +M 1` on. -/
theorem cumulativeAckPopsTheFront : Obligations.CumulativeAckPopsTheFront := by
  intro s pkt hc hlen hwin hrange hnum hv hseq hguard gap hpos hW hhonest
  constructor
  · refine exec_ackin_next.mpr ⟨hc, hlen, ?_⟩
    rw [onAck_cumulative hv hseq hguard hpos hW, admit_eq, acknowledge_eq_drop hc hwin hrange.2 hnum]
  · have hcount : (s.tx.windowQueue.take gap).length = gap := List.length_take_of_le hhonest
    have hfront := map_eq_map_range_iff (f := seqOf) (l := s.tx.windowQueue.take gap)
      (g := fun j => addM s.tx.cfg.M s.tx.lastAck.toNat (1 + j))
    rw [hcount] at hfront
    refine hfront.mpr fun j q hj => seqOf_window hnum ?_
    rw [List.getElem?_take] at hj
    split at hj
    · exact hj
    · cases hj

/-! ## The state after reset -/

/-- Settles O36: the values stand in the definition of the reset state. -/
theorem resetLeavesTheStatedValues : Obligations.ResetLeavesTheStatedValues := by
  unfold Obligations.ResetLeavesTheStatedValues
  decide

/-- Settles O52: the default configuration is legal, and each invariant holds of a side just reset. -/
theorem resetHasEveryInvariant : Obligations.ResetHasEveryInvariant := by
  have hc : Cfg.default.Legal := by decide
  refine ⟨?_, .inr rfl, numbered_initial hc, nofun, ⟨rfl, hc, rfl⟩, ⟨rfl, rfl, rfl⟩⟩
  exact ⟨⟨hc, hc⟩, Nat.zero_le _, by decide, nofun, by decide⟩

end Sys2Proof.Proofs
end

section
/-! PROOFS of the family 20_memory.md: that FRAGMENT does not carry a message boundary (O10), what a window operation of the
sender transmits (O21), the output event DELIVER (O34), that a step is the decoded operation (O38), and the operands that are
refused (O34, O43). -/

namespace Sys2Proof.Proofs

open Sys2Proof.Machine Sys2Proof.Safety Sys2Proof.Laws

/-! ## A step is the operation its event selects -/

/-- Where the next event's bytes decode, the step is the operation, at the state that has taken the event (R36, R82). -/
theorem step_of_decodeEvent {s : State} {e : Event} {rest : List Event} {sd : Side} {port : Port} {bytes : List Byte}
    {i : Instr} (hev : s.events = e :: rest) (hin : e.input = .present sd port bytes)
    (hdec : decodeEvent sd port (s.cfgOf sd).P bytes = .ok i) : step s = exec i (s.take e rest) := by
  rw [step, hev]
  change dispatch e.input (s.take e rest) = _
  rw [hin, dispatch, State.take_cfgOf, hdec]

/-- Settles O38: `dispatch` hands the decoded operation to `exec` and adds nothing. -/
theorem stepRunsTheDecodedOperation : Obligations.StepRunsTheDecodedOperation :=
  fun _ _ _ _ _ _ _ hev hin hdec _ => step_of_decodeEvent hev hin hdec

/-! ## Operands that are refused -/

/-- What is not exactly `P` bytes does not pass the check on a packet operand (U9). -/
theorem whenPacket_of_length_ne {c : Cfg} {pkt : Packet} (hc : c.Legal) (hlen : pkt.length ≠ c.P) (k : Outcome) :
    whenPacket c pkt k = .refused .notAPacket := by
  rw [whenPacket, whenLegal_pos hc, if_neg (by simp [wfPacket, hlen])]

/-- The format K operations of either side refuse what is no packet (R27, U8, U9). -/
theorem exec_formatK_refused {s : State} {sd : Side} {pkt : Packet} (hc : (s.cfgOf sd).Legal)
    (hlen : pkt.length ≠ (s.cfgOf sd).P) :
    exec (.cksum sd pkt) s = .refused .notAPacket ∧ exec (.verify sd pkt) s = .refused .notAPacket ∧
      exec (.xmit sd pkt) s = .refused .notAPacket ∧ exec (.packet sd pkt) s = .refused .notAPacket :=
  have hrefused := whenPacket_of_length_ne hc hlen
  ⟨hrefused _, hrefused _, hrefused _, hrefused _⟩

/-- The preconditions of ENCODE (R53). -/
theorem wfEncode_eq_true_iff {c : Cfg} {len : Byte} {pay : List Byte} :
    wfEncode c len pay = true ↔ len.toNat ≤ c.maxPay ∧ pay.length = len.toNat := by
  rw [wfEncode, Bool.and_eq_true, decide_eq_true_iff, decide_eq_true_iff]

/-- ENCODE outside its preconditions is refused (U8). -/
theorem exec_encode_refused {s : State} {sd : Side} {len seq : Byte} {pay : List Byte} (hc : (s.cfgOf sd).Legal)
    (hwf : ¬ wfEncode (s.cfgOf sd) len pay = true) : exec (.encode sd len seq pay) s = .refused .notEncodable := by
  rw [exec, execEncode, whenLegal_pos hc, if_neg hwf]

/-- Settles O43: format K asks for exactly `P` bytes in front of every meaning, and ENCODE for its preconditions. -/
theorem wrongSizedOperandIsRefused : Obligations.WrongSizedOperandIsRefused := by
  refine fun s pkt => ⟨fun hc hlen => ?_, fun hc hlen => ?_, fun sd len seq pay hc hsize => ?_⟩
  · obtain ⟨hcksum, hverify, hxmit, hpacket⟩ := exec_formatK_refused (sd := .tx) hc hlen
    exact ⟨whenPacket_of_length_ne hc hlen _, hcksum, hverify, hxmit, hpacket⟩
  · obtain ⟨hcksum, hverify, hxmit, hpacket⟩ := exec_formatK_refused (sd := .rx) hc hlen
    exact ⟨whenPacket_of_length_ne hc hlen _, hcksum, hverify, hxmit, hpacket⟩
  · refine exec_encode_refused hc fun hwf => ?_
    obtain ⟨hmax, hpay⟩ := wfEncode_eq_true_iff.mp hwf
    exact hsize.elim (Nat.not_lt.mpr hmax) (absurd hpay)

/-- DELIVER of more bytes than a payload can have is refused (R31, R72). -/
theorem exec_deliver_refused {s : State} {bytes : List Byte} (hc : s.rx.cfg.Legal)
    (hlen : s.rx.cfg.maxPay < bytes.length) : exec (.deliver bytes) s = .refused .notAPayload := by
  rw [exec, execDeliver, whenLegal_pos hc, if_neg (by simpa [wfDeliver] using hlen)]

/-- Settles O34: at most `MAXPAY` bytes become one output event of the receiver, more are refused. -/
theorem deliverEmitsThePayload : Obligations.DeliverEmitsThePayload :=
  fun _ _ hc => ⟨fun hlen => exec_deliver_next.mpr ⟨hc, hlen, rfl⟩, exec_deliver_refused hc⟩

/-! ## A boundary at a multiple of `MAXPAY` -/

/-- Any fuel that covers the message is enough (R57). -/
theorem fragmentLoop_eq_fragment {fuel : Nat} {msg : List Byte} {t : Sender} (hc : t.cfg.Legal)
    (hs : t.nextSeq.toNat < t.cfg.M) (hfuel : msg.length ≤ fuel) : Sender.fragmentLoop fuel msg t = t.fragment msg :=
  (fragmentLoop_eq fuel msg t hc hs hfuel).trans (fragment_eq msg t hc hs).symm

/-- Pushing a chunk leaves `nextSeq` in the sequence space (INV-R). -/
theorem pushChunk_nextSeq_lt {t : Sender} (hc : t.cfg.Legal) (chunk : List Byte) :
    (t.pushChunk chunk).nextSeq.toNat < t.cfg.M := by
  have hb := legal_bounds hc
  rw [Sender.pushChunk_nextSeq, nextInSpace_toNat hc]
  exact addM_lt (by omega) _ _

/-- FRAGMENT of a message that is not empty pushes its first chunk and then fragments the rest (R57). -/
theorem fragment_of_ne_nil {t : Sender} {msg : List Byte} (hc : t.cfg.Legal) (hmsg : msg ≠ []) :
    t.fragment msg = (t.pushChunk (msg.take t.cfg.maxPay)).fragment (msg.drop t.cfg.maxPay) := by
  have hb := legal_bounds hc
  obtain ⟨b, bs, rfl⟩ := List.exists_cons_of_ne_nil hmsg
  refine fragmentLoop_eq_fragment (fuel := bs.length) hc (pushChunk_nextSeq_lt hc _) ?_
  rw [List.length_drop, List.length_cons]
  omega

/-- A message whose first part fills `k` packets is fragmented as its two parts (R99): each of the first `k` chunks lies in
the first part, so the chunks of the second begin where it begins. -/
theorem fragment_append {k : Nat} {first second : List Byte} {t : Sender} (hc : t.cfg.Legal)
    (hlen : first.length = k * t.cfg.maxPay) : t.fragment (first ++ second) = (t.fragment first).fragment second := by
  induction k generalizing first t with
  | zero =>
    obtain rfl : first = [] := List.length_eq_zero_iff.mp (by omega)
    rfl
  | succ k ih =>
    have hb := legal_bounds hc
    rw [Nat.succ_mul] at hlen
    have hfill : t.cfg.maxPay ≤ first.length := by omega
    have hne : first ≠ [] := List.length_pos_iff.mp (by omega)
    rw [fragment_of_ne_nil hc (List.append_ne_nil_of_left_ne_nil hne second), fragment_of_ne_nil hc hne,
      List.take_append_of_le_length hfill, List.drop_append_of_le_length hfill]
    refine ih hc ?_
    rw [List.length_drop, hlen, Nat.add_sub_cancel]
    rfl

/-- While `BUF_DEPTH` is unbounded FRAGMENT answers a next state (D9). -/
theorem exec_fragment_of_unbounded {s : State} (hc : s.tx.cfg.Legal) (hdepth : s.tx.cfg.bufDepth = none)
    (msg : List Byte) : exec (.fragment msg) s = .next { s with tx := s.tx.fragment msg } :=
  exec_fragment_next.mpr ⟨hc, by rw [roomFor, hdepth], rfl⟩

/-- Settles O10: with room for every packet FRAGMENT is the fragmentation alone, which cuts the message where its first part
ends. -/
theorem messageBoundariesAreNotCarried : Obligations.MessageBoundariesAreNotCarried := by
  intro s u first second _ hdepth hmod h
  obtain ⟨hc, -, rfl⟩ := exec_fragment_next.mp h
  have hlen : first.length = first.length / s.tx.cfg.maxPay * s.tx.cfg.maxPay :=
    (Nat.div_mul_cancel (Nat.dvd_of_mod_eq_zero hmod)).symm
  have hcfg := fragment_cfg first s.tx
  rw [exec_fragment_of_unbounded hc hdepth, fragment_append hc hlen,
    exec_fragment_of_unbounded (hcfg.symm ▸ hc) ((congrArg Cfg.bufDepth hcfg).trans hdepth)]

/-! ## What a window operation of the sender transmits -/

/-- From `t` to `t'` the sender has transmitted some packets of its window, each followed by one ARM (R68): with any, one
expiry is pending `TIMEOUT` after now (R74); with none, `tmrArmed` is `armed` and the deadline as it was. -/
def Transmits (now : Time) (armed : Bool) (t t' : Sender) : Prop :=
  ∃ pkts : List Packet,
    t'.out = t.out ++ transmissions t.cfg.timeout pkts ∧
    (pkts ≠ [] → t'.tmrArmed = true ∧ t'.tmrDeadline = now + t.cfg.timeout) ∧
    (pkts = [] → t'.tmrArmed = armed ∧ t'.tmrDeadline = t.tmrDeadline) ∧
    ∀ pkt ∈ pkts, pkt ∈ t'.windowQueue

/-- The closed form of the sender's loops transmits, where its packets are in the window. -/
theorem transmits_retransmitted {now : Time} {pkts : List Packet} {t : Sender}
    (hwin : ∀ pkt ∈ pkts, pkt ∈ t.windowQueue) : Transmits now t.tmrArmed t (retransmitted now pkts t) :=
  ⟨pkts, rfl, fun hne => ⟨if_neg hne, if_neg hne⟩, fun hnil => ⟨if_pos hnil, if_pos hnil⟩, hwin⟩

theorem transmits_refl (now : Time) (t : Sender) : Transmits now t.tmrArmed t t := by
  have hnone : Transmits now t.tmrArmed t (retransmitted now [] t) := transmits_retransmitted nofun
  rwa [retransmitted_nil] at hnone

/-- ADMIT pushes each packet to the window before it transmits it (R61). -/
theorem transmits_admitFromBuffer (now : Time) (t : Sender) :
    Transmits now t.tmrArmed t (t.admitFromBuffer now) := by
  rw [admit_eq]
  exact transmits_retransmitted (t := { t with
    bufferQueue := t.bufferQueue.drop (admissible t).length
    windowQueue := t.windowQueue ++ admissible t }) fun _ hmem => List.mem_append_right _ hmem

/-- FRAGMENT writes neither the trace nor the timer, so SUBMIT transmits what its ADMIT does (R60). -/
theorem transmits_submit (now : Time) (msg : List Byte) (t : Sender) :
    Transmits now t.tmrArmed t (t.submit now msg) := by
  obtain ⟨q, n, hfrag⟩ := fragment_frame msg t
  rw [Sender.submit, hfrag]
  exact transmits_admitFromBuffer now { t with bufferQueue := q, nextSeq := n }

/-- The removal of R65 writes neither the trace nor the timer, so ACKIN transmits what its ADMIT does (R62). -/
theorem transmits_onAck (now : Time) (pkt : Packet) (t : Sender) : Transmits now t.tmrArmed t (t.onAck now pkt) := by
  obtain heq | heq | ⟨-, -, -, -, heq⟩ := onAck_cases now pkt t <;> rw [heq]
  · exact transmits_refl now t
  · exact transmits_admitFromBuffer now t
  · exact transmits_admitFromBuffer now (t.acknowledge _ _)

/-- TIMEOUT transmits the window (R66). -/
theorem transmits_onTimeout (now : Time) (t : Sender) : Transmits now t.tmrArmed t (t.onTimeout now) := by
  rw [Sender.onTimeout, retransmit_eq]
  exact transmits_retransmitted fun _ => id

/-- EXPIRE is TIMEOUT after the expiry has been consumed (R77). -/
theorem transmits_expire (now : Time) (t : Sender) : Transmits now false t (t.expire now) :=
  transmits_onTimeout now { t with tmrArmed := false }

/-- Settles O21: each of the six operations ends with ADMIT or TIMEOUT, or with a drop. -/
theorem everyTransmissionRearms : Obligations.EveryTransmissionRearms := by
  intro s s' i hi h
  change Transmits s.now (if i = .expire then false else s.tx.tmrArmed) s.tx s'.tx
  obtain ⟨msg, rfl⟩ | rfl | ⟨pkt, rfl⟩ | ⟨pkt, rfl⟩ | rfl | rfl := hi
  · obtain ⟨-, -, rfl⟩ := exec_submit_next.mp h
    rw [if_neg nofun]; exact transmits_submit s.now msg s.tx
  · obtain ⟨-, rfl⟩ := exec_admit_next.mp h
    rw [if_neg nofun]; exact transmits_admitFromBuffer s.now s.tx
  · obtain ⟨-, -, rfl⟩ := exec_ackin_next.mp h
    rw [if_neg nofun]; exact transmits_onAck s.now pkt s.tx
  · obtain ⟨-, -, rfl⟩ := exec_packet_next.mp h
    rw [if_neg nofun]; exact transmits_onAck s.now pkt s.tx
  · obtain ⟨-, rfl⟩ := exec_timeout_next.mp h
    rw [if_neg nofun]; exact transmits_onTimeout s.now s.tx
  · obtain ⟨-, -, rfl⟩ := exec_expire_next.mp h
    rw [if_pos rfl]; exact transmits_expire s.now s.tx

end Sys2Proof.Proofs
end

section
/-! PROOFS of the family 30_encoding.md: the decoder and the encoder are inverse (O44, O45, and the words of the table, O46),
what selects no operation (O40), the packets handed to and taken from the channel (O33, O35), and what ACKIN reads of a
packet (O17). The first group rests on one characterisation of the decoder, `decode_ok_iff`, built from one equivalence per
operand format. -/

namespace Sys2Proof.Proofs

open Sys2Proof.Machine Sys2Proof.Safety Sys2Proof.Laws

/-! ## The operand formats: what a reader accepts is what the encoder writes -/

/-- A number of seven bits is one byte, whatever the fuel. -/
theorem writeNatFuel_of_lt {n : Nat} (h : n < 128) (fuel : Nat) : writeNatFuel fuel n = [BitVec.ofNat 8 n] := by
  cases fuel with
  | zero => rfl
  | succ fuel => rw [writeNatFuel, if_pos h]

/-- A byte with bit 7 set in front of a number's bytes is the next seven bits below it (log 5). -/
theorem writeNatFuel_cons {b : Byte} {n fuel : Nat} (hb : 128 ≤ b.toNat) (hn : n ≠ 0) :
    writeNatFuel (fuel + 1) (b.toNat - 128 + 128 * n) = b :: writeNatFuel fuel n := by
  have hlt := b.isLt
  have hlow : (b.toNat - 128 + 128 * n) % 128 + 128 = b.toNat := by omega
  have hhigh : (b.toNat - 128 + 128 * n) / 128 = n := by omega
  rw [writeNatFuel, if_neg (by omega), hlow, hhigh, BitVec.ofNat_toNat, BitVec.setWidth_eq]

/-- A number is read from no bytes but those the encoder writes, because the reader insists on the shortest form. -/
theorem eq_writeNatFuel_of_readNat {bytes : List Byte} {n : Nat} {rest : List Byte}
    (h : readNat bytes = .ok (n, rest)) {fuel : Nat} (hfuel : n ≤ fuel) : bytes = writeNatFuel fuel n ++ rest := by
  induction bytes generalizing n fuel with
  | nil => cases h
  | cons b bytes ih =>
    unfold readNat at h
    split at h
    next hlow =>
      cases h
      rw [writeNatFuel_of_lt hlow, BitVec.ofNat_toNat, BitVec.setWidth_eq, List.singleton_append]
    next hhigh =>
      split at h
      next => cases h
      next m rest' hread =>
        split at h
        next => cases h
        next hm =>
          cases h
          obtain ⟨fuel, rfl⟩ : ∃ k, fuel = k + 1 := ⟨fuel - 1, by omega⟩
          rw [writeNatFuel_cons (by omega) hm, ih (fuel := fuel) hread (by omega), List.cons_append]

/-- A length or a duration is read from its shortest form and nothing else (log 5). -/
theorem readNat_ok_iff {bytes : List Byte} {n : Nat} {rest : List Byte} :
    readNat bytes = .ok (n, rest) ↔ bytes = writeNat n ++ rest :=
  ⟨fun h => eq_writeNatFuel_of_readNat h le_rfl, fun h => h ▸ readNat_writeNat n rest⟩

/-- Format K reads one packet, exactly `P` bytes. -/
theorem readPacket_ok_iff {P : Nat} {mk : Packet → Instr} {bytes : List Byte} {i : Instr} {rest : List Byte} :
    readPacket P mk bytes = .ok (i, rest) ↔ ∃ pkt, pkt.length = P ∧ bytes = pkt ++ rest ∧ i = mk pkt := by
  constructor
  · intro h
    unfold readPacket at h
    split at h
    next => cases h
    next pkt _ hread =>
      cases h
      obtain ⟨hbytes, hlen⟩ := readBytes_ok hread
      exact ⟨pkt, hlen, hbytes, rfl⟩
  · rintro ⟨pkt, hlen, rfl, rfl⟩
    exact readPacket_append hlen mk rest

/-- Format B reads a length and as many bytes. -/
theorem readString_ok_iff {mk : List Byte → Instr} {bytes : List Byte} {i : Instr} {rest : List Byte} :
    readString mk bytes = .ok (i, rest) ↔ ∃ msg, bytes = writeString msg ++ rest ∧ i = mk msg := by
  constructor
  · intro h
    unfold readString at h
    split at h
    next => cases h
    next n tail hlength =>
      split at h
      next => cases h
      next msg _ hread =>
        cases h
        obtain ⟨rfl, rfl⟩ := readBytes_ok hread
        exact ⟨msg, by rw [writeString, List.append_assoc]; exact readNat_ok_iff.mp hlength, rfl⟩
  · rintro ⟨msg, rfl, rfl⟩
    exact readString_writeString mk msg rest

/-- Format E reads `L`, `seq`, and `L` payload bytes. -/
theorem readEncode_ok_iff {sd : Side} {bytes : List Byte} {i : Instr} {rest : List Byte} :
    readEncode sd bytes = .ok (i, rest) ↔
      ∃ len seq pay, pay.length = len.toNat ∧ bytes = len :: seq :: pay ++ rest ∧ i = .encode sd len seq pay := by
  constructor
  · intro h
    unfold readEncode at h
    split at h
    next len seq tail =>
      split at h
      next => cases h
      next pay _ hread =>
        cases h
        obtain ⟨rfl, hlen⟩ := readBytes_ok hread
        exact ⟨len, seq, pay, hlen, rfl, rfl⟩
    next => cases h
  · rintro ⟨len, seq, pay, hlen, rfl, rfl⟩
    simp only [readEncode, List.cons_append, ← hlen, readBytes_append]

/-- Format D reads a duration. -/
theorem readDuration_ok_iff {bytes : List Byte} {i : Instr} {rest : List Byte} :
    readDuration bytes = .ok (i, rest) ↔ ∃ d, bytes = writeNat d ++ rest ∧ i = .arm d := by
  constructor
  · intro h
    unfold readDuration at h
    split at h
    next => cases h
    next d _ hread =>
      cases h
      exact ⟨d, readNat_ok_iff.mp hread, rfl⟩
  · rintro ⟨d, rfl, rfl⟩
    rw [readDuration, readNat_writeNat]

/-- Format N reads nothing. -/
theorem readNone_ok_iff {op i : Instr} {bytes rest : List Byte} :
    readNone op bytes = .ok (i, rest) ↔ bytes = rest ∧ i = op := by
  rw [readNone, Except.ok.injEq, Prod.mk.injEq, and_comm, eq_comm (a := op)]

/-- The check that the side has the code's unit (R2). -/
theorem onlyAt_ok_iff {need sd : Side} {opc : Byte} {k : Except Reject (Instr × List Byte)} {x : Instr × List Byte} :
    onlyAt need sd opc k = .ok x ↔ sd = need ∧ k = .ok x := by
  by_cases h : sd = need
  · rw [onlyAt, if_pos h, and_iff_right h]
  · rw [onlyAt, if_neg h]
    exact ⟨nofun, fun hx => absurd hx.1 h⟩

/-! ## What the decoder accepts -/

/-- The operand fills its format for the packet size `P`: the part of `Instr.wf` that the decoder checks, which does not ask
whether ENCODE's or DELIVER's bytes fit in a packet. -/
def OperandFits (P : Nat) : Instr → Prop
  | .cksum _ pkt | .verify _ pkt | .ackin pkt | .pktin pkt | .xmit _ pkt | .packet _ pkt => pkt.length = P
  | .encode _ len _ pay => pay.length = len.toNat
  | .fragment _ | .submit _ | .admitFromBuffer | .timeout | .arm _ | .cancel | .query | .expire | .deliver _ => True

/-- Format K's size (R27). -/
theorem wfPacket_eq_true_iff {c : Cfg} {pkt : Packet} : wfPacket c pkt = true ↔ pkt.length = c.P :=
  decide_eq_true_iff

/-- A well-formed operation's operand fills its format. -/
theorem operandFits_of_wf {cfg : Side → Cfg} {i : Instr} (h : i.wf cfg = true) : OperandFits (cfg i.side).P i := by
  cases i with
  | cksum | verify | ackin | pktin | xmit | packet => exact wfPacket_eq_true_iff.mp h
  | encode => exact (wfEncode_eq_true_iff.mp h).2
  | fragment | submit | admitFromBuffer | timeout | arm | cancel | query | expire | deliver => trivial

/-- The bytes begin with the event of `i`, presented where `i` belongs, and go on with `rest` (R46, R47). -/
def Presents (sd : Side) (port : Port) (P : Nat) (bytes : List Byte) (i : Instr) (rest : List Byte) : Prop :=
  bytes = encode i ++ rest ∧ i.side = sd ∧ i.port = port ∧ OperandFits P i

/-- A code and an operand that decode are the event of the operation: the rows of the table, by operand format. -/
theorem presents_of_decodeCode {sd : Side} {P : Nat} {opc : Byte} {operand : List Byte} {i : Instr} {rest : List Byte}
    (h : decodeCode sd P opc operand = .ok (i, rest)) : Presents sd .cmd P (opc :: operand) i rest := by
  obtain ⟨n, hn, rfl⟩ : ∃ n < 256, opc = BitVec.ofNat 8 n := ⟨opc.toNat, opc.isLt, by simp⟩
  rw [decodeCode, toNat_byte_of_lt hn] at h
  split at h
  -- Format K at either side: CKSUM, VERIFY, XMIT.
  case h_1 | h_3 | h_14 =>
    obtain ⟨pkt, hlen, rfl, rfl⟩ := readPacket_ok_iff.mp h
    exact ⟨rfl, rfl, rfl, hlen⟩
  -- Format K at one side: ACKIN, PKTIN.
  case h_7 | h_9 =>
    obtain ⟨rfl, hread⟩ := onlyAt_ok_iff.mp h
    obtain ⟨pkt, hlen, rfl, rfl⟩ := readPacket_ok_iff.mp hread
    exact ⟨rfl, rfl, rfl, hlen⟩
  -- Format E: ENCODE.
  case h_2 =>
    obtain ⟨len, seq, pay, hlen, rfl, rfl⟩ := readEncode_ok_iff.mp h
    exact ⟨rfl, rfl, rfl, hlen⟩
  -- Format B: FRAGMENT, SUBMIT, DELIVER.
  case h_4 | h_5 | h_15 =>
    obtain ⟨rfl, hread⟩ := onlyAt_ok_iff.mp h
    obtain ⟨msg, rfl, rfl⟩ := readString_ok_iff.mp hread
    exact ⟨rfl, rfl, rfl, trivial⟩
  -- Format N: ADMIT, TIMEOUT, CANCEL, QUERY, EXPIRE.
  case h_6 | h_8 | h_11 | h_12 | h_13 =>
    obtain ⟨rfl, hread⟩ := onlyAt_ok_iff.mp h
    obtain ⟨rfl, rfl⟩ := readNone_ok_iff.mp hread
    exact ⟨rfl, rfl, rfl, trivial⟩
  -- Format D: ARM.
  case h_10 =>
    obtain ⟨rfl, hread⟩ := onlyAt_ok_iff.mp h
    obtain ⟨d, rfl, rfl⟩ := readDuration_ok_iff.mp hread
    exact ⟨rfl, rfl, rfl, trivial⟩
  case h_16 => cases h

/-- An operation whose operand fills its format decodes from its own event, presented where it belongs: `decode` reduces to
the reader of its row. -/
theorem decode_encode_append {P : Nat} {i : Instr} (h : OperandFits P i) (rest : List Byte) :
    decode i.side i.port P (encode i ++ rest) = .ok (i, rest) := by
  cases i with
  | cksum | verify | ackin | pktin | xmit | packet => exact readPacket_append h _ rest
  | encode sd len seq pay => exact readEncode_ok_iff.mpr ⟨len, seq, pay, h, rfl, rfl⟩
  | fragment msg | submit msg | deliver msg => exact readString_writeString _ msg rest
  | admitFromBuffer | timeout | cancel | query | expire => rfl
  | arm d => exact readDuration_ok_iff.mpr ⟨d, rfl, rfl⟩

/-- The decoder accepts the events of the operations whose operands fill their format, each where it belongs, and nothing
else. -/
theorem decode_ok_iff {sd : Side} {port : Port} {P : Nat} {bytes : List Byte} {i : Instr} {rest : List Byte} :
    decode sd port P bytes = .ok (i, rest) ↔ Presents sd port P bytes i rest := by
  constructor
  · intro h
    cases port with
    | wire =>
      obtain ⟨pkt, hlen, hbytes, rfl⟩ := readPacket_ok_iff.mp h
      exact ⟨hbytes, rfl, rfl, hlen⟩
    | cmd =>
      cases bytes with
      | nil => cases h
      | cons opc operand => exact presents_of_decodeCode h
  · rintro ⟨rfl, rfl, rfl, hfits⟩
    exact decode_encode_append hfits rest

/-- An event is one operation and nothing after it. -/
theorem decodeEvent_ok_iff {sd : Side} {port : Port} {P : Nat} {bytes : List Byte} {i : Instr} :
    decodeEvent sd port P bytes = .ok i ↔ Presents sd port P bytes i [] := by
  rw [← decode_ok_iff]
  constructor
  · intro h
    unfold decodeEvent at h
    split at h
    next => cases h
    next hdec => cases h; exact hdec
    next => cases h
  · intro h
    rw [decodeEvent, h]

/-- Settles O44: a well-formed operand fills its format, so the decoder accepts its event. -/
theorem decodeInvertsEncode : Obligations.DecodeInvertsEncode := fun _ i hwf =>
  decodeEvent_ok_iff.mpr ⟨(List.append_nil (encode i)).symm, rfl, rfl, operandFits_of_wf hwf⟩

/-- Settles O45: the decoder accepts nothing but what the encoder writes. -/
theorem encodeInvertsDecode : Obligations.EncodeInvertsDecode := by
  intro sd port P bytes i h
  obtain ⟨hbytes, hside, hport, -⟩ := decodeEvent_ok_iff.mp h
  exact ⟨(List.append_nil (encode i)).symm.trans hbytes.symm, hside, hport⟩

/-! ## Codes that select no operation -/

/-- A code in neither table selects no operation, at either side and whatever follows it (R46). -/
theorem decodeCode_unknown (sd : Side) (P : Nat) (opc : Byte) (operand : List Byte)
    (h : opc.toNat ∉ [0x10, 0x11, 0x12, 0x20, 0x30, 0x31, 0x32, 0x33, 0x40, 0x50, 0x51, 0x52, 0x53, 0x80, 0x81]) :
    decodeCode sd P opc operand = .error (.unknownCode opc) := by
  unfold decodeCode
  split
  case h_16 => rfl
  all_goals exact absurd (by rw [‹opc.toNat = _›]; decide) h

/-- Where the next event's bytes do not decode, the step is the refusal that says why (R46). -/
theorem step_of_decodeEvent_error {s : State} {e : Event} {rest : List Event} {sd : Side} {port : Port}
    {bytes : List Byte} {r : Reject} (hev : s.events = e :: rest) (hin : e.input = .present sd port bytes)
    (hdec : decodeEvent sd port (s.cfgOf sd).P bytes = .error r) : step s = .refused (.undecodable r) := by
  rw [step, hev]
  change dispatch e.input (s.take e rest) = _
  rw [hin, dispatch, State.take_cfgOf, hdec]

/-- Settles O40: the code is looked up before anything of the operand is read. -/
theorem unknownCodeIsRefused : Obligations.UnknownCodeIsRefused := by
  intro s e rest sd opc operand hev hin hunknown
  refine step_of_decodeEvent_error hev hin ?_
  rw [decodeEvent, decode, decodeCode_unknown sd _ opc operand hunknown]

/-! ## Words of the table -/

/-- What a word of the table decodes to is the operation whose event its layout begins with. -/
theorem decodeTableWord_eq_some {nbits w : Nat} {i : Instr} (rest : List Byte)
    (h : Presents (tableSide nbits w) (tablePort nbits) Cfg.default.P (tableLayout Cfg.default.P nbits w) i rest) :
    decodeTableWord nbits w = some i := by
  rw [decodeTableWord, decode_ok_iff.mpr h]

/-- Settles O46: a word of the table, zeros after it, begins with the event of its operation; each event written out is what
the encoder writes; 0x34 is no code. -/
theorem tableWordsDecode : Obligations.TableWordsDecode := by
  refine ⟨decodeTableWord_eq_some _ ⟨rfl, rfl, rfl, trivial⟩, decodeTableWord_eq_some _ ⟨rfl, rfl, rfl, trivial⟩,
    decodeTableWord_eq_some _ ⟨rfl, rfl, rfl, trivial⟩, decodeTableWord_eq_some _ ⟨rfl, rfl, rfl, trivial⟩,
    decodeTableWord_eq_some _ ⟨rfl, rfl, rfl, trivial⟩,
    decodeTableWord_eq_some (List.replicate 65 0#8) ⟨rfl, rfl, rfl, trivial⟩,
    decodeEvent_ok_iff.mpr ⟨rfl, rfl, rfl, rfl⟩, decodeEvent_ok_iff.mpr ⟨rfl, rfl, rfl, rfl⟩,
    decodeEvent_ok_iff.mpr ⟨rfl, rfl, rfl, trivial⟩, ?_⟩
  have hunknown : decode (tableSide 8 0x34) (tablePort 8) Cfg.default.P (tableLayout Cfg.default.P 8 0x34) =
      .error (.unknownCode 0x34#8) := decodeCode_unknown .tx 64 0x34#8 (List.replicate 66 0#8) (by decide)
  rw [decodeTableWord, hunknown]

/-! ## Packets to and from the channel -/

/-- Settles O33: XMIT of a packet passes the check on its operand and emits. -/
theorem xmitEmitsThePacket : Obligations.XmitEmitsThePacket := fun _ _ =>
  ⟨fun hc hlen => exec_xmit_next.mpr ⟨hc, hlen, rfl⟩, fun hc hlen => exec_xmit_next.mpr ⟨hc, hlen, rfl⟩⟩

/-- Settles O35: PACKET and the operation of its side make the same check and the same move. -/
theorem packetIsOnPacketOfItsSide : Obligations.PacketIsOnPacketOfItsSide := fun _ _ =>
  ⟨fun hc hlen => ⟨_, exec_packet_next.mpr ⟨hc, hlen, rfl⟩, exec_ackin_next.mpr ⟨hc, hlen, rfl⟩, rfl⟩,
    fun hc hlen => ⟨_, exec_packet_next.mpr ⟨hc, hlen, rfl⟩, exec_pktin_next.mpr ⟨hc, hlen, rfl⟩, rfl⟩⟩

/-! ## What ACKIN reads of a packet -/

/-- The tests of R62 read the checksum's validity and the sequence byte. -/
theorem classifyAck_congr {p q : Packet} (hverify : verify p = verify q) (hseq : byteAt p 1 = byteAt q 1) (c : Cfg)
    (last : Byte) : classifyAck c last p = classifyAck c last q := by
  have hseqOf : seqOf p = seqOf q := congrArg BitVec.toNat hseq
  rw [classifyAck, classifyAck, hverify, hseqOf]

/-- What ACKIN does after its tests reads the sequence byte at most. -/
theorem onAck_congr {p q : Packet} (hverify : verify p = verify q) (hseq : byteAt p 1 = byteAt q 1) (now : Time)
    (t : Sender) : t.onAck now p = t.onAck now q := by
  rw [Sender.onAck, Sender.onAck, classifyAck_congr hverify hseq, hseq]

/-- Settles O17: the check on the operand reads the length of the packet, ACKIN itself `verify` and byte 1. -/
theorem ackinReadsOnlyValidityAndSequence : Obligations.AckinReadsOnlyValidityAndSequence := by
  intro s p q hlen hverify hseq
  have hsize : wfPacket s.tx.cfg p = wfPacket s.tx.cfg q := by rw [wfPacket, wfPacket, hlen]
  change execAckin p s = execAckin q s
  rw [execAckin, execAckin, whenPacket, whenPacket, hsize, onAck_congr hverify hseq]

end Sys2Proof.Proofs
end

section
/-! PROOFS of the family 40_codec.md: the fold and the running sum of CKSUM (O1, O2), what CKSUM, ENCODE and VERIFY answer
(O3, O4, O5), and what the checksum detects and does not detect (O6, O7, O8). The law of R52 is proved first: the sum after
the walk is a function of one number, the plain total of the covered words (`cksumSum_eq_coveredTotal`). So a reordering of
the words, which keeps the total, is not seen, and a change of one byte, which moves it by less than 65535, is. -/

namespace Sys2Proof.Proofs

open Sys2Proof.Machine Sys2Proof.Safety Sys2Proof.Laws

/-! ## The carry fold (R51) -/

/-- The low 16 bits, as a mask and as a remainder. -/
theorem and_0xFFFF (n : Nat) : n &&& 0xFFFF = n % 0x10000 := Nat.and_two_pow_sub_one_eq_mod n 16

/-- Settles O1: masking with `0xFFFF` is the remainder the model writes. -/
theorem foldIsASingleStep : Obligations.FoldIsASingleStep :=
  ⟨fun sum => by rw [fold, and_0xFFFF], by decide⟩

/-- A sum of 16 bits carries nothing (R51). -/
theorem fold_of_le {sum : Nat} (h : sum ≤ 0xFFFF) : fold sum = sum := if_neg (by omega)

/-- Up to `0x1FFFE` one fold is enough: folding again changes nothing (R52). -/
theorem fold_eq_fullFold {sum : Nat} (h : sum ≤ 0x1FFFE) : fold sum = fullFold sum := by
  simp only [fold, fullFold]
  split <;> omega

/-! ## One's-complement sums (R52) -/

theorem onesComplementSum_le (total : Nat) : onesComplementSum total ≤ 0xFFFF := by
  unfold onesComplementSum
  split_ifs <;> omega

theorem onesComplementSum_of_le {total : Nat} (h : total ≤ 0xFFFF) : onesComplementSum total = total := by
  unfold onesComplementSum
  split_ifs <;> omega

/-- The sum determines the total modulo 65535. -/
theorem modEq_onesComplementSum (total : Nat) : onesComplementSum total ≡ total [MOD 65535] := by
  unfold onesComplementSum Nat.ModEq
  split_ifs <;> omega

/-- One round of the walk (R50 step 3): the sum keeps to the closed form. -/
theorem addWord_onesComplementSum (total : Nat) {word : Nat} (h : word ≤ 0xFFFF) :
    addWord (onesComplementSum total) word = onesComplementSum (total + word) := by
  unfold addWord fold onesComplementSum
  split_ifs <;> omega

/-- The whole walk keeps to the closed form. -/
theorem foldl_addWord_onesComplementSum {words : List Nat} (h : ∀ word ∈ words, word ≤ 0xFFFF) (total : Nat) :
    words.foldl addWord (onesComplementSum total) = onesComplementSum (total + words.sum) := by
  induction words generalizing total with
  | nil => rfl
  | cons word words ih =>
    obtain ⟨hword, hwords⟩ := List.forall_mem_cons.mp h
    rw [List.foldl_cons, addWord_onesComplementSum total hword, ih hwords, List.sum_cons, Nat.add_assoc]

/-! ## The covered words (R50) -/

theorem wordAt_le (pkt : Packet) (i : Nat) : wordAt pkt i ≤ 0xFFFF := by
  have hhigh := (byteAt pkt i).isLt
  have hlow := (byteAt pkt (i + 1)).isLt
  unfold wordAt; omega

/-- The checksum field is the word at offset 2 (R42). -/
theorem cksOf_eq (pkt : Packet) : cksOf pkt = wordAt pkt 2 := memRead_two pkt 2

/-- The words of the walk are those at offsets `4, 6, ..., P-2` (R50 step 3). -/
theorem walkWords_eq (pkt : Packet) :
    walkWords pkt = (List.range ((pkt.length - 4) / 2)).map fun k => wordAt pkt (4 + 2 * k) :=
  List.map_congr_left fun k _ => memRead_two pkt (4 + 2 * k)

theorem walkWords_le {pkt : Packet} {word : Nat} (h : word ∈ walkWords pkt) : word ≤ 0xFFFF := by
  rw [walkWords_eq] at h
  obtain ⟨k, -, rfl⟩ := List.mem_map.mp h
  exact wordAt_le pkt _

/-- The fold of the seed changes nothing (R52). -/
theorem fold_wordAt (pkt : Packet) (i : Nat) : fold (wordAt pkt i) = wordAt pkt i := fold_of_le (wordAt_le pkt i)

/-- The sum after the first `n` words of the walk, in closed form (R52). -/
theorem foldl_take_walkWords (pkt : Packet) (n : Nat) :
    ((walkWords pkt).take n).foldl addWord (wordAt pkt 0) =
      onesComplementSum (wordAt pkt 0 + ((walkWords pkt).take n).sum) := by
  rw [← foldl_addWord_onesComplementSum fun _ hmem => walkWords_le (List.mem_of_mem_take hmem),
    onesComplementSum_of_le (wordAt_le pkt 0)]

/-- The offsets of the words CKSUM covers, in a packet of `n` bytes: the seed and the walk (R50). -/
def coveredOffsets (n : Nat) : List Nat := 0 :: (List.range ((n - 4) / 2)).map fun k => 4 + 2 * k

/-- The plain total of the covered words, on which alone the checksum depends (R52). -/
def coveredTotal (pkt : Packet) : Nat := ((coveredOffsets pkt.length).map (wordAt pkt)).sum

/-- The covered words as the claims write them: the seed, then the words of the walk. -/
theorem map_coveredOffsets (pkt : Packet) :
    (coveredOffsets pkt.length).map (wordAt pkt) =
      wordAt pkt 0 :: (List.range ((pkt.length - 4) / 2)).map fun k => wordAt pkt (4 + 2 * k) := by
  rw [coveredOffsets, List.map_cons, List.map_map]; rfl

theorem coveredTotal_eq (pkt : Packet) : coveredTotal pkt = wordAt pkt 0 + (walkWords pkt).sum := by
  rw [coveredTotal, map_coveredOffsets, List.sum_cons, walkWords_eq]

/-- R52's closed form: the sum after the walk is the one's-complement sum of the covered words. -/
theorem cksumSum_eq_coveredTotal (pkt : Packet) : cksumSum pkt = onesComplementSum (coveredTotal pkt) := by
  have hwalk := foldl_take_walkWords pkt (walkWords pkt).length
  rw [List.take_length] at hwalk
  rw [cksumSum, memRead_two, ← wordAt, fold_wordAt, hwalk, coveredTotal_eq]

/-- Settles O2: every sum of the walk has the closed form, which is at most `0xFFFF`, so a word more is at most `0x1FFFE`
and one fold is a full one. -/
theorem checksumSumIsOnesComplement : Obligations.ChecksumSumIsOnesComplement := by
  intro pkt seed words sumAfter
  have hwords : words = walkWords pkt := (walkWords_eq pkt).symm
  have hsum (n : Nat) : sumAfter n ≤ 0xFFFF := by
    change (words.take n).foldl addWord (wordAt pkt 0) ≤ 0xFFFF
    rw [hwords, foldl_take_walkWords]
    exact onesComplementSum_le _
  refine ⟨fold_wordAt pkt 0, hsum, fun n word hword => ?_, ?_⟩
  · have hle : word ≤ 0xFFFF := walkWords_le (hwords ▸ List.mem_of_getElem? hword)
    have hbound : sumAfter n + word ≤ 0x1FFFE := Nat.add_le_add (hsum n) hle
    exact ⟨hbound, fold_eq_fullFold hbound⟩
  · rw [cksumSum_eq_coveredTotal, coveredTotal_eq, hwords]

/-! ## What CKSUM, VERIFY and ENCODE answer -/

/-- The complement of the sum, as the pseudocode writes it (R50 step 4). -/
theorem cksum_eq_ofNat (pkt : Packet) : cksum pkt = BitVec.ofNat 16 (65535 - (cksumSum pkt &&& 0xFFFF)) := by
  rw [and_0xFFFF, cksum]
  apply BitVec.eq_of_toNat_eq
  simp only [BitVec.toNat_not, BitVec.toNat_ofNat]
  omega

/-- The walk of the pseudocode is a loop over the word positions (R50). -/
theorem cksumSum_eq_foldl (pkt : Packet) :
    cksumSum pkt = (List.range ((pkt.length - 4) / 2)).foldl (fun sum k => fold (sum + wordAt pkt (4 + 2 * k)))
      (fold (wordAt pkt 0)) := by
  rw [cksumSum, walkWords_eq, List.foldl_map, memRead_two]; rfl

/-- Settles O3: CKSUM answers `cksum`, which is the value of the pseudocode. -/
theorem cksumAnswersTheChecksum : Obligations.CksumAnswersTheChecksum := by
  intro s pkt sum c
  have hc : c = cksum pkt := by rw [cksum_eq_ofNat, cksumSum_eq_foldl]
  rw [hc]
  exact ⟨fun hlegal hlen => exec_cksum_next.mpr ⟨hlegal, hlen, rfl⟩,
    fun hlegal hlen => exec_cksum_next.mpr ⟨hlegal, hlen, rfl⟩⟩

theorem verify_eq_decide (pkt : Packet) : verify pkt = decide ((cksum pkt).toNat = wordAt pkt 2) := by
  rw [verify, cksOf_eq, beq_eq_decide]

theorem verify_eq_true_iff {pkt : Packet} : verify pkt = true ↔ (cksum pkt).toNat = wordAt pkt 2 := by
  rw [verify_eq_decide, decide_eq_true_iff]

theorem verify_eq_false_iff {pkt : Packet} : verify pkt = false ↔ (cksum pkt).toNat ≠ wordAt pkt 2 := by
  rw [verify_eq_decide, decide_eq_false_iff_not]

/-- Settles O5: VERIFY answers `verify`, which compares with the word at offset 2. -/
theorem verifyAnswersFieldEquality : Obligations.VerifyAnswersFieldEquality := by
  intro s pkt ok
  have hok : ok = verify pkt := (verify_eq_decide pkt).symm
  rw [hok]
  exact ⟨fun hlegal hlen => exec_verify_next.mpr ⟨hlegal, hlen, rfl⟩,
    fun hlegal hlen => exec_verify_next.mpr ⟨hlegal, hlen, rfl⟩⟩

section EncodedBytes

variable {P : Nat} {len seq : Byte} {pay : List Byte}

theorem byteAt_encodePacket_zero (h : 4 + pay.length ≤ P) : byteAt (encodePacket P len seq pay) 0 = len := by
  rw [encodePacket_eq P len seq pay h]; rfl

theorem byteAt_encodePacket_one (h : 4 + pay.length ≤ P) : byteAt (encodePacket P len seq pay) 1 = seq := by
  rw [encodePacket_eq P len seq pay h]; rfl

/-- The payload stands at offset 4 (R53). -/
theorem getElem?_encodePacket_payload (h : 4 + pay.length ≤ P) {k : Nat} (hk : k < pay.length) :
    (encodePacket P len seq pay)[4 + k]? = pay[k]? := by
  rw [encodePacket_eq P len seq pay h, Nat.add_comm 4 k]
  simp only [List.getElem?_cons_succ]
  exact List.getElem?_append_left hk

/-- From the payload's end to the packet's end there are zeros (R53). -/
theorem getElem?_encodePacket_padding (h : 4 + pay.length ≤ P) {i : Nat} (hlow : 4 + pay.length ≤ i) (hhigh : i < P) :
    (encodePacket P len seq pay)[i]? = some 0#8 := by
  obtain ⟨j, rfl⟩ := Nat.exists_eq_add_of_le hlow
  rw [← List.getElem?_drop, padding_encodePacket h, List.getElem?_replicate, if_pos (by omega)]

end EncodedBytes

/-- Settles O4: the bytes of ENCODE's closed form, and its field is the one VERIFY compares. -/
theorem encodeBuildsTheWireFormat : Obligations.EncodeBuildsTheWireFormat := by
  intro s len seq pay hpay built
  have hbuilt {c : Cfg} (hc : c.Legal) (hlen : len.toNat ≤ c.maxPay) : built c.P (encodePacket c.P len seq pay) := by
    have hb := legal_bounds hc
    have hfit : 4 + pay.length ≤ c.P := by omega
    exact ⟨encodePacket_length _ _ _ _ hfit, byteAt_encodePacket_zero hfit, byteAt_encodePacket_one hfit,
      fun k hk => getElem?_encodePacket_payload hfit (hpay ▸ hk),
      fun i hlow hhigh => getElem?_encodePacket_padding hfit (hpay ▸ hlow) hhigh,
      (verify_eq_true_iff.mp (verify_encodePacket _ _ _ _ hfit)).symm⟩
  exact ⟨fun hc hlen => ⟨_, hbuilt hc hlen, exec_encode_next.mpr ⟨hc, wfEncode_eq_true_iff.mpr ⟨hlen, hpay⟩, rfl⟩⟩,
    fun hc hlen => ⟨_, hbuilt hc hlen, exec_encode_next.mpr ⟨hc, wfEncode_eq_true_iff.mpr ⟨hlen, hpay⟩, rfl⟩⟩⟩

/-- Settles O6: under a legal configuration the payload fits behind the header, and then `verify_encodePacket` holds. -/
theorem encodedPacketsVerify : Obligations.EncodedPacketsVerify := by
  intro c len seq pay hc hpay hmax
  have hb := legal_bounds hc
  exact verify_encodePacket _ _ _ _ (by omega)

/-! ## What the checksum does not see: the order of the words -/

/-- Packets of one total have one checksum. -/
theorem cksum_of_coveredTotal {p q : Packet} (h : coveredTotal p = coveredTotal q) : cksum p = cksum q := by
  rw [cksum, cksum, cksumSum_eq_coveredTotal, cksumSum_eq_coveredTotal, h]

/-- Settles O8: a permutation of the covered words keeps their total. -/
theorem exchangedWordsAreNotDetected : Obligations.ExchangedWordsAreNotDetected := by
  intro p q _ hfield hperm
  have htotal : coveredTotal p = coveredTotal q := by
    rw [coveredTotal, coveredTotal, map_coveredOffsets, map_coveredOffsets]
    exact hperm.sum_eq
  have hcksum := cksum_of_coveredTotal htotal
  exact ⟨hcksum, by rw [verify_eq_decide, verify_eq_decide, hcksum, hfield]⟩

/-! ## What the checksum sees: a change of one byte -/

/-- Packets of one checksum have totals that agree modulo 65535. -/
theorem coveredTotal_modEq_of_cksum {p q : Packet} (h : cksum p = cksum q) :
    coveredTotal p ≡ coveredTotal q [MOD 65535] := by
  have hsum : cksumSum p = cksumSum q := by
    rw [cksum, cksum, BitVec.not_inj] at h
    have hnat := congrArg BitVec.toNat h
    have hp := onesComplementSum_le (coveredTotal p)
    have hq := onesComplementSum_le (coveredTotal q)
    rw [← cksumSum_eq_coveredTotal] at hp hq
    simp only [BitVec.toNat_ofNat] at hnat
    omega
  rw [cksumSum_eq_coveredTotal, cksumSum_eq_coveredTotal] at hsum
  calc coveredTotal p
    _ ≡ onesComplementSum (coveredTotal p) [MOD 65535] := (modEq_onesComplementSum _).symm
    _ ≡ coveredTotal q [MOD 65535] := by rw [hsum]; exact modEq_onesComplementSum _

/-- What is read after a byte has been written: that byte at its offset, and every other byte as it was. -/
theorem byteAt_set {pkt : Packet} {off : Nat} (h : off < pkt.length) (b : Byte) (i : Nat) :
    byteAt (pkt.set off b) i = if i = off then b else byteAt pkt i := by
  split_ifs with hi
  · simp [byteAt, hi, h]
  · simp [byteAt, Ne.symm hi]

section ByteChange

variable {pkt : Packet} {off : Nat} {b : Byte}

/-- A word that does not hold the byte stays. -/
theorem wordAt_set_of_ne (hoff : off < pkt.length) {i : Nat} (hi : i ≠ off) (hnext : i + 1 ≠ off) :
    wordAt (pkt.set off b) i = wordAt pkt i := by
  rw [wordAt, wordAt, byteAt_set hoff, byteAt_set hoff, if_neg hi, if_neg hnext]

/-- The word that holds the byte moves by at most `255 * 256`, so it changes even modulo 65535. -/
theorem wordAt_set_not_modEq (hoff : off < pkt.length) (hb : b ≠ byteAt pkt off) {i : Nat} (hi : i = off ∨ i + 1 = off) :
    ¬ wordAt (pkt.set off b) i ≡ wordAt pkt i [MOD 65535] := by
  have hne : b.toNat ≠ (byteAt pkt off).toNat := fun h => hb (BitVec.eq_of_toNat_eq h)
  have hnew := b.isLt
  have hold := (byteAt pkt off).isLt
  have hhigh := (byteAt pkt i).isLt
  have hlow := (byteAt pkt (i + 1)).isLt
  rw [wordAt, wordAt, byteAt_set hoff, byteAt_set hoff, Nat.ModEq]
  rcases hi with rfl | rfl
  · rw [if_pos rfl, if_neg (by omega)]; omega
  · rw [if_neg (by omega), if_pos rfl]; omega

theorem mem_coveredOffsets {n i : Nat} :
    i ∈ coveredOffsets n ↔ i = 0 ∨ 4 ≤ i ∧ i % 2 = 0 ∧ i + 2 ≤ n := by
  simp only [coveredOffsets, List.mem_cons, List.mem_map, List.mem_range]
  refine or_congr_right ⟨?_, fun h => ⟨(i - 4) / 2, by omega, by omega⟩⟩
  rintro ⟨k, hk, rfl⟩
  omega

/-- No word is covered twice (R50). -/
theorem coveredOffsets_nodup (n : Nat) : (coveredOffsets n).Nodup := by
  refine List.nodup_cons.mpr ⟨?_, List.nodup_range.map fun i j h => by simpa using h⟩
  simp only [List.mem_map, not_exists, not_and]
  omega

/-- Every byte outside the checksum field of a packet of even length lies in a covered word (R50, R55). -/
theorem mem_coveredOffsets_of_byte {n : Nat} (heven : n % 2 = 0) (hoff : off < n) (h2 : off ≠ 2) (h3 : off ≠ 3) :
    off - off % 2 ∈ coveredOffsets n :=
  mem_coveredOffsets.mpr (by omega)

/-- A change of one byte outside the checksum field changes one covered word, and so the checksum (R55). -/
theorem cksum_set_ne (heven : pkt.length % 2 = 0) (hoff : off < pkt.length) (h2 : off ≠ 2) (h3 : off ≠ 3)
    (hb : b ≠ byteAt pkt off) : cksum (pkt.set off b) ≠ cksum pkt := by
  intro hcksum
  have hmem := mem_coveredOffsets_of_byte heven hoff h2 h3
  have hrest : ∀ i ∈ (coveredOffsets pkt.length).erase (off - off % 2), wordAt (pkt.set off b) i = wordAt pkt i := by
    intro i hi
    obtain ⟨hne, hcovered⟩ := (coveredOffsets_nodup _).mem_erase_iff.mp hi
    have haligned := mem_coveredOffsets.mp hcovered
    exact wordAt_set_of_ne hoff (by omega) (by omega)
  have htotal := coveredTotal_modEq_of_cksum hcksum
  rw [coveredTotal, coveredTotal, List.length_set, ← List.sum_map_erase (wordAt (pkt.set off b)) hmem,
    ← List.sum_map_erase (wordAt pkt) hmem, List.map_congr_left hrest] at htotal
  exact wordAt_set_not_modEq hoff hb (by omega) (htotal.add_right_cancel' _)

/-- CKSUM does not read the checksum field, so a change of it leaves the checksum (R50, R55). -/
theorem cksum_set_of_field (hlen : 4 ≤ pkt.length) (hoff : off = 2 ∨ off = 3) : cksum (pkt.set off b) = cksum pkt := by
  obtain ⟨len, seq, high, low, body, rfl⟩ := header_split pkt hlen
  rcases hoff with rfl | rfl
  · exact cksum_header len seq b low high low body
  · exact cksum_header len seq high b high low body

/-- VERIFY detects every change of one byte: it changes either the checksum or the field, not both (R54, R55). -/
theorem verify_set_eq_false (heven : pkt.length % 2 = 0) (hlen : 4 ≤ pkt.length) (hoff : off < pkt.length)
    (hb : b ≠ byteAt pkt off) (hverify : verify pkt = true) : verify (pkt.set off b) = false := by
  have hvalid := verify_eq_true_iff.mp hverify
  refine verify_eq_false_iff.mpr fun hfield => ?_
  by_cases hoffField : off = 2 ∨ off = 3
  · rw [cksum_set_of_field hlen hoffField, hvalid] at hfield
    exact wordAt_set_not_modEq hoff hb (i := 2) (by omega) (congrArg (· % 65535) hfield.symm)
  · obtain ⟨h2, h3⟩ := not_or.mp hoffField
    rw [wordAt_set_of_ne hoff (Ne.symm h2) (by omega), ← hvalid] at hfield
    exact cksum_set_ne heven hoff h2 h3 hb (BitVec.eq_of_toNat_eq hfield)

end ByteChange

/-- A mask of one bit is not zero. -/
theorem one_shiftLeft_ne_zero : ∀ bit < 8, (1#8 : Byte) <<< bit ≠ 0#8 := by decide

/-- Flipping a bit of a byte gives another byte. -/
theorem xor_bit_ne (b : Byte) {bit : Nat} (h : bit < 8) : b ^^^ 1#8 <<< bit ≠ b := fun heq =>
  one_shiftLeft_ne_zero bit h ((BitVec.xor_right_inj _).mp (heq.trans BitVec.xor_zero.symm))

/-- Settles O7: a flipped bit is a changed byte. -/
theorem singleBitErrorsAreDetected : Obligations.SingleBitErrorsAreDetected := by
  intro c pkt off bit hc hsize hverify hoff hbit
  have hb := legal_bounds hc
  have heven : pkt.length % 2 = 0 := by omega
  have hinside : off < pkt.length := hsize ▸ hoff
  have hflip := xor_bit_ne (byteAt pkt off) hbit
  exact ⟨verify_set_eq_false heven (by omega) hinside hflip hverify, fun hfield => cksum_set_of_field (by omega) hfield,
    fun h2 h3 => cksum_set_ne heven hinside h2 h3 hflip⟩

end Sys2Proof.Proofs
end

section
/-! PROOFS of the family 41_fragmenter.md: the chunking law of FRAGMENT (O9), SUBMIT in closed form (O12), and the exactly-once
delivery of a message (O26). All three rest on `packetsOf`, the packets FRAGMENT makes: their fields give O9, and that a
receiver which expects the first of them accepts them all (`execAll_pktin_accepts`) gives O26. -/

namespace Sys2Proof.Proofs

open Sys2Proof.Machine Sys2Proof.Safety Sys2Proof.Laws

/-! ## The chunks of a message (R58) -/

/-- Every chunk but the last is `MAXPAY` bytes; the last is the rest. -/
theorem chunk_length_eq {c : Cfg} (hc : c.Legal) {msg : List Byte} {j : Nat} (hj : j < chunkCount c msg.length) :
    (chunk c msg j).length =
      if j + 1 < chunkCount c msg.length then c.maxPay else msg.length - (chunkCount c msg.length - 1) * c.maxPay := by
  have hb := legal_bounds hc
  have hmin : (chunk c msg j).length = min c.maxPay (msg.length - j * c.maxPay) := by
    rw [chunk, List.length_take, List.length_drop]
  rw [hmin]
  split
  case isTrue hnext =>
    have hend : (j + 2) * c.maxPay ≤ msg.length + c.maxPay - 1 := (Nat.le_div_iff_mul_le (by omega)).mp hnext
    rw [Nat.add_mul] at hend
    omega
  case isFalse hlast =>
    obtain rfl : j = chunkCount c msg.length - 1 := by omega
    have hend : msg.length + c.maxPay - 1 < (chunkCount c msg.length - 1 + 2) * c.maxPay :=
      (Nat.div_lt_iff_lt_mul (by omega)).mp (by change chunkCount c msg.length < _; omega)
    rw [Nat.add_mul] at hend
    omega

/-- A chunk is as many bytes of the message as it has, from `j * MAXPAY` on. -/
theorem take_chunk_length (c : Cfg) (msg : List Byte) (j : Nat) :
    (msg.drop (j * c.maxPay)).take (chunk c msg j).length = chunk c msg j := by
  rw [chunk, List.length_take, ← List.take_eq_take_min]

/-! ## The packets of a message (R58) -/

/-- The payload of what ENCODE builds is the payload it was given (R42, R53). -/
theorem payOf_encodePacket {P : Nat} {len seq : Byte} {pay : List Byte} (h : 4 + pay.length ≤ P)
    (hlen : len.toNat = pay.length) : payOf (encodePacket P len seq pay) = pay := by
  rw [payOf, lenOf_encodePacket h, hlen, encodePacket_eq P len seq pay h]
  exact List.take_left

section PacketFields

variable {c : Cfg}

theorem lenOf_packetOf (hc : c.Legal) (s0 : Nat) (msg : List Byte) (j : Nat) :
    lenOf (packetOf c s0 msg j) = (chunk c msg j).length := by
  have hb := legal_bounds hc
  have hmax := chunk_length_le c msg j
  rw [packetOf, lenOf_encodePacket (by omega), toNat_byte_of_lt (by omega)]

theorem payOf_packetOf (hc : c.Legal) (s0 : Nat) (msg : List Byte) (j : Nat) :
    payOf (packetOf c s0 msg j) = chunk c msg j := by
  have hb := legal_bounds hc
  have hmax := chunk_length_le c msg j
  exact payOf_encodePacket (by omega) (toNat_byte_of_lt (by omega))

theorem getElem?_packetsOf {s0 j : Nat} {msg : List Byte} (hj : j < chunkCount c msg.length) :
    (packetsOf c s0 msg)[j]? = some (packetOf c s0 msg j) := by
  rw [packetsOf, List.getElem?_map, List.getElem?_range hj, Option.map_some]

/-- The payloads of a message's packets, one after the other, are the message (R58): the first is its first chunk, and those
that follow are the packets of the rest. -/
theorem flatMap_payOf_packetsOf (hc : c.Legal) (s0 : Nat) (msg : List Byte) :
    (packetsOf c s0 msg).flatMap payOf = msg := by
  by_cases hmsg : msg = []
  · rw [hmsg, packetsOf_nil hc]; rfl
  · rw [packetsOf_cons hc s0 hmsg, List.flatMap_cons, flatMap_payOf_packetsOf hc _ (msg.drop c.maxPay),
      payOf_packetOf hc, chunk_zero, List.take_append_drop]
termination_by msg.length
decreasing_by
  have hb := legal_bounds hc
  have hpos := List.length_pos_iff.mpr hmsg
  rw [List.length_drop]
  omega

end PacketFields

/-! ## FRAGMENT and SUBMIT with room in the buffer -/

/-- There is room for a message when its packets stay within a finite `BUF_DEPTH` (U6, D9). -/
theorem roomFor_eq_true_iff {t : Sender} {n : Nat} :
    roomFor t n = true ↔
      ∀ depth, t.cfg.bufDepth = some depth → t.bufferQueue.length + chunkCount t.cfg n ≤ depth := by
  unfold roomFor
  cases t.cfg.bufDepth <;> simp

/-- Settles O9: FRAGMENT in closed form appends `packetsOf`, whose fields are those of its chunks. -/
theorem fragmentFollowsTheChunkingLaw : Obligations.FragmentFollowsTheChunkingLaw := by
  intro s msg hc hseq c n k hroom
  refine ⟨packetsOf c s.tx.nextSeq.toNat msg, ?_, packetsOf_length _ _ _, fun j hj => ?_,
    flatMap_payOf_packetsOf hc _ msg⟩
  · refine exec_fragment_next.mpr ⟨hc, roomFor_eq_true_iff.mpr hroom, ?_⟩
    rw [fragment_eq msg s.tx hc hseq]
    rfl
  · intro len
    have hlen : (chunk c msg j).length = len := chunk_length_eq hc hj
    have hget := getElem?_packetsOf (s0 := s.tx.nextSeq.toNat) hj
    rw [← hlen, take_chunk_length]
    exact ⟨chunk_length_pos hc hj, chunk_length_le c msg j, _, hget,
      packetsOf_genuine hc _ msg _ (List.mem_of_getElem? hget), lenOf_packetOf hc _ msg j, seqOf_packetsOf hc hget,
      payOf_packetOf hc _ msg j⟩

/-- Settles O12: SUBMIT is FRAGMENT and then ADMIT, both in closed form. -/
theorem submitTransmitsWhatFits : Obligations.SubmitTransmitsWhatFits := by
  intro s msg hc hseq c k hroom
  refine exec_submit_next.mpr ⟨hc, roomFor_eq_true_iff.mpr hroom, ?_⟩
  rw [Sender.submit, admit_eq, fragment_eq msg s.tx hc hseq]
  rfl

/-! ## A receiver that accepts several packets in order (R70, R72) -/

/-- The receiver after it has accepted `pkts` in order: each delivered and then echoed, `expectedSeq` advanced past them. -/
def accepted (pkts : List Packet) (r : Receiver) : Receiver :=
  { r with
    expectedSeq := BitVec.ofNat 8 (addM r.cfg.M r.expectedSeq.toNat pkts.length)
    out := r.out ++ pkts.flatMap fun pkt => [.deliver (payOf pkt), .xmit pkt] }

theorem accepted_nil {r : Receiver} (h : ExpectedInRange r) : accepted [] r = r := by
  simp [accepted, addM_zero h]

/-- Accepting a packet and then others is accepting them all. -/
theorem accepted_onPacket {pkt : Packet} {r : Receiver} (hc : r.cfg.Legal) (hverify : verify pkt = true)
    (hseq : seqOf pkt = r.expectedSeq.toNat) (hlen : lenOf pkt ≤ r.cfg.maxPay) (rest : List Packet) :
    accepted rest (r.onPacket pkt) = accepted (pkt :: rest) r := by
  rw [onPacket_accept hverify hseq hlen]
  simp only [accepted, nextInSpace_toNat hc, addM_assoc, List.length_cons, Nat.add_comm 1, List.flatMap_cons,
    List.append_assoc]

/-- Genuine packets numbered from `expectedSeq` on, presented to PKTIN in order, are all accepted. -/
theorem execAll_pktin_accepts {pkts : List Packet} {s : State} (hs : ReceiverSound s.rx)
    (hgenuine : ∀ pkt ∈ pkts, Genuine s.rx.cfg pkt)
    (hseq : ∀ j pkt, pkts[j]? = some pkt → seqOf pkt = addM s.rx.cfg.M s.rx.expectedSeq.toNat j) :
    execAll (pkts.map .pktin) s = .next { s with rx := accepted pkts s.rx } := by
  induction pkts generalizing s with
  | nil => rw [accepted_nil hs.range]; rfl
  | cons pkt rest ih =>
    obtain ⟨⟨hsize, hverify, -, hlen, -, -⟩, hrest⟩ := List.forall_mem_cons.mp hgenuine
    have hfirst : seqOf pkt = s.rx.expectedSeq.toNat := (hseq 0 pkt rfl).trans (addM_zero hs.range)
    have hexec := exec_pktin_next.mpr ⟨hs.legal, hsize, Eq.refl { s with rx := s.rx.onPacket pkt }⟩
    have hnext : (s.rx.onPacket pkt).expectedSeq.toNat = addM s.rx.cfg.M s.rx.expectedSeq.toNat 1 := by
      rw [onPacket_accept hverify hfirst hlen, nextInSpace_toNat hs.legal]
    rw [List.map_cons, execAll_cons_of_next hexec, ih (hs.onPacket pkt)]
    · rw [accepted_onPacket hs.legal hverify hfirst hlen]
    · rwa [onPacket_cfg]
    · intro j q hj
      rw [onPacket_cfg, hnext, addM_assoc, Nat.add_comm 1]
      exact hseq (j + 1) q hj

/-! ## What a trace delivers (R72) -/

theorem delivered_append (first second : List Output) :
    delivered (first ++ second) = delivered first ++ delivered second := by
  induction first with
  | nil => rfl
  | cons o rest ih => cases o <;> simp [delivered, ih]

/-- Accepting packets delivers their payloads: an echo delivers nothing. -/
theorem delivered_accepted (pkts : List Packet) (r : Receiver) :
    delivered (accepted pkts r).out = delivered r.out ++ pkts.flatMap payOf := by
  rw [accepted, delivered_append]
  congr 1
  induction pkts with
  | nil => rfl
  | cons pkt rest ih => simp [delivered, ih]

/-- Settles O26: the packets FRAGMENT made are genuine and numbered from `nextSeq` on, which is where the paired receiver
waits, and `nextSeq` and `expectedSeq` advance alike. -/
theorem messageIsDeliveredExactlyOnce : Obligations.MessageIsDeliveredExactlyOnce := by
  rintro s u msg ⟨hcfg, hc, hexp⟩ ⟨hnext, -⟩ h pkts
  obtain ⟨-, -, rfl⟩ := exec_fragment_next.mp h
  have hfrag := fragment_eq msg s.tx hc hnext
  have hpkts : pkts = packetsOf s.tx.cfg s.tx.nextSeq.toNat msg := by
    change (s.tx.fragment msg).bufferQueue.drop _ = _
    rw [hfrag, List.drop_left]
  have hrx : ReceiverSound s.rx := ⟨hcfg ▸ hc, show _ < _ by rwa [hexp, ← hcfg]⟩
  refine ⟨_, execAll_pktin_accepts (s := { s with tx := s.tx.fragment msg }) hrx ?_ ?_, ?_, rfl, rfl, ?_⟩
  · rw [hpkts, ← hcfg]
    exact packetsOf_genuine hc _ msg
  · intro j pkt hj
    rw [hpkts] at hj
    rw [← hcfg, hexp]
    exact seqOf_packetsOf hc hj
  · rw [delivered_accepted, hpkts, flatMap_payOf_packetsOf hc]
  · refine ⟨(fragment_cfg msg s.tx).trans hcfg, (fragment_cfg msg s.tx).symm ▸ hc, ?_⟩
    rw [hfrag, accepted, ← hcfg, hexp, hpkts, packetsOf_length]

end Sys2Proof.Proofs
end

section
/-! PROOFS of the family 42_sender_window.md: SUBMIT, ADMIT, ACKIN and TIMEOUT in closed form (O11, O13, O15, O19, O20), the
guard of ACKIN (O16), the livelock after a lost acknowledgment (O25), and eventual delivery by rounds of recovery (O60). The
last rests on one invariant of the rounds, `Recoverable`: a round completes (`execAll_recoveryRound`), delivers the window,
and leads to a state with the invariant again (`recoverable_recovered`). -/

namespace Sys2Proof.Proofs

open Sys2Proof.Machine Sys2Proof.Safety Sys2Proof.Laws

/-! ## SUBMIT and ADMIT -/

/-- Settles O11: SUBMIT passes the checks FRAGMENT passes, and runs ADMIT on what FRAGMENT leaves. -/
theorem submitIsFragmentThenAdmit : Obligations.SubmitIsFragmentThenAdmit := by
  intro s u msg h
  obtain ⟨hc, hroom, rfl⟩ := exec_fragment_next.mp h
  rw [exec_submit_next.mpr ⟨hc, hroom, rfl⟩, exec_admit_next.mpr ⟨(fragment_cfg msg s.tx).symm ▸ hc, rfl⟩]
  rfl

/-- ADMIT moves nothing exactly if the window has no room or the buffer no packet. -/
theorem admissible_eq_nil_iff {t : Sender} :
    admissible t = [] ↔ min (t.cfg.W - t.windowQueue.length) t.bufferQueue.length = 0 := by
  rw [← List.length_eq_zero_iff, admissible_length]

/-- Settles O13: ADMIT in closed form, with the number of the packets it moves in place of the list of them. -/
theorem admitMovesTheOldestPackets : Obligations.AdmitMovesTheOldestPackets := by
  intro s hc k moved
  refine ⟨s.tx.admitFromBuffer s.now, exec_admit_next.mpr ⟨hc, rfl⟩, ?_, fun hwin => ?_⟩
  · have hlen : (admissible s.tx).length = k := admissible_length s.tx
    have hnil : (admissible s.tx = []) = (k = 0) := propext admissible_eq_nil_iff
    simp only [admit_eq, admitted, retransmitted, hlen, hnil]
    rfl
  · have hbound := windowBounded_admitFromBuffer hwin s.now
    have hsettled := settled_admitFromBuffer hwin s.now
    rw [WindowBounded, admitFromBuffer_cfg] at hbound
    rw [Settled, admitFromBuffer_cfg] at hsettled
    exact ⟨hbound, hsettled⟩

/-- ADMIT leaves an armed timer armed. -/
theorem admitFromBuffer_tmrArmed {t : Sender} (h : t.tmrArmed = true) (now : Time) :
    (t.admitFromBuffer now).tmrArmed = true := by
  rw [admit_eq, admitted, retransmitted]
  split_ifs
  · exact h
  · rfl

/-! ## ACKIN -/

/-- The guard as R63 writes it. -/
theorem ackGuard_eq_true_iff {M W ack last : Nat} :
    ackGuard M W ack last = true ↔ ack > last ∧ last + M - ack ≤ W := by
  rw [ackGuard, Bool.and_eq_true, decide_eq_true_iff, decide_eq_true_iff]

/-- ACKIN in closed form: its tests in order, and what each branch does (R62). -/
theorem onAck_eq (now : Time) (pkt : Packet) (t : Sender) :
    t.onAck now pkt =
      if verify pkt = false then t
      else if seqOf pkt ≥ t.cfg.M then t
      else if ackGuard t.cfg.M t.cfg.W (seqOf pkt) t.lastAck.toNat then t
      else if 0 < subM t.cfg.M (seqOf pkt) t.lastAck.toNat ∧ subM t.cfg.M (seqOf pkt) t.lastAck.toNat ≤ t.cfg.W then
        admitted now (t.acknowledge (byteAt pkt 1) (subM t.cfg.M (seqOf pkt) t.lastAck.toNat))
      else admitted now t := by
  simp only [Sender.onAck, classifyAck, ← admit_eq]
  split_ifs <;> rfl

/-- Settles O15: the tests of `onAck_eq` in the spec's words, each branch a state of the machine. -/
theorem ackinFollowsItsTests : Obligations.AckinFollowsItsTests := by
  intro s pkt hc hlen c ack last gap
  refine exec_ackin_next.mpr ⟨hc, hlen, ?_⟩
  simp only [onAck_eq, verify_eq_false_iff, ackGuard_eq_true_iff, apply_ite (fun t => { s with tx := t })]
  rfl

/-- If `2W < M` the guard takes in only what is stale anyway (R98). -/
theorem gap_gt_of_ackGuard {M W ack last : Nat} (hack : ack < M) (hlast : last < M) (hnarrow : 2 * W < M)
    (hguard : ackGuard M W ack last = true) : W < subM M ack last := by
  obtain ⟨hgt, hle⟩ := ackGuard_eq_true_iff.mp hguard
  rw [subM_eq hack hlast, if_pos hgt.le]
  omega

/-- Settles O16: above `lastAck` the gap is the plain difference, and the rest is linear arithmetic. -/
theorem guardRejectsLateWraps : Obligations.GuardRejectsLateWraps := by
  intro c ack last hc hack hlast
  have hb := legal_bounds hc
  refine ⟨?_, fun hguard hnarrow => gap_gt_of_ackGuard hack hlast hnarrow hguard, fun _ hgt hgap _ => ?_,
    fun hsentinel => ?_⟩
  · rw [ackGuard_eq_true_iff]; omega
  · rw [subM_eq hack hlast, if_pos hgt.le] at hgap
    exact ackGuard_eq_true_iff.mpr ⟨hgt, by omega⟩
  · rw [Bool.eq_false_iff, Ne, ackGuard_eq_true_iff]; omega

/-! ## TIMEOUT and EXPIRE -/

/-- TIMEOUT in closed form (R66). -/
theorem onTimeout_eq (now : Time) (t : Sender) : t.onTimeout now = retransmitted now t.windowQueue t :=
  retransmit_eq now t.windowQueue t

/-- Settles O19: TIMEOUT in closed form. -/
theorem timeoutRetransmitsTheWindow : Obligations.TimeoutRetransmitsTheWindow :=
  fun s hc => exec_timeout_next.mpr ⟨hc, by rw [onTimeout_eq]; rfl⟩

/-- Transmitting the same packets again at the same time only adds the same outputs to the trace: the timer is where the
first time left it. -/
theorem retransmitted_twice (now : Time) (pkts : List Packet) (t : Sender) :
    retransmitted now pkts (retransmitted now pkts t) =
      { retransmitted now pkts t with
        out := (retransmitted now pkts t).out ++ transmissions t.cfg.timeout pkts } := by
  by_cases hnil : pkts = [] <;> simp [retransmitted, hnil]

/-- Settles O20: the second TIMEOUT transmits the window the first left as it was. -/
theorem timeoutIsIdempotent : Obligations.TimeoutIsIdempotent := by
  intro s u h
  obtain ⟨hc, rfl⟩ := exec_timeout_next.mp h
  rw [onTimeout_eq]
  refine ⟨transmissions s.tx.cfg.timeout s.tx.windowQueue, rfl, exec_timeout_next.mpr ⟨hc, ?_⟩, rfl, rfl, rfl, rfl⟩
  have htwice := retransmitted_twice s.now s.tx.windowQueue s.tx
  rw [onTimeout_eq]
  exact congrArg (fun t => { s with tx := t }) htwice.symm

/-- EXPIRE of a sender whose window is not empty: the expiry it consumes is pending again afterwards (R66, R77). -/
theorem expire_eq {t : Sender} (hwin : t.windowQueue ≠ []) (now : Time) :
    t.expire now = retransmitted now t.windowQueue t := by
  rw [Sender.expire, onTimeout_eq]
  simp [retransmitted, hwin]

/-! ## Packets the receiver does not expect -/

/-- PKTIN drops a packet with another sequence number than the expected one (R70). -/
theorem onPacket_of_seq_ne {pkt : Packet} {r : Receiver} (hseq : seqOf pkt ≠ r.expectedSeq.toNat) :
    r.onPacket pkt = r := by
  obtain heq | ⟨-, hexp, -, -⟩ := onPacket_cases pkt r
  · exact heq
  · exact absurd hexp hseq

/-- Packets of which none is expected leave the machine as it is, however many they are (R95). -/
theorem execAll_pktin_drops {pkts : List Packet} {s : State} (hc : s.rx.cfg.Legal)
    (hpkts : ∀ pkt ∈ pkts, pkt.length = s.rx.cfg.P ∧ seqOf pkt ≠ s.rx.expectedSeq.toNat) :
    execAll (pkts.map .pktin) s = .next s := by
  induction pkts with
  | nil => rfl
  | cons pkt rest ih =>
    obtain ⟨⟨hlen, hseq⟩, hrest⟩ := List.forall_mem_cons.mp hpkts
    have hdrop : exec (.pktin pkt) s = .next s := exec_pktin_next.mpr ⟨hc, hlen, by rw [onPacket_of_seq_ne hseq]⟩
    rw [List.map_cons, execAll_cons_of_next hdrop]
    exact ih hrest

/-- Settles O25: EXPIRE transmits the window and arms the timer again, and the receiver drops every packet of it. -/
theorem lostFinalAckIsNeverRepaired : Obligations.LostFinalAckIsNeverRepaired := by
  intro s hc hcfg hen hwin hpkts
  have hdrops : execAll (s.tx.windowQueue.map .pktin) { s with tx := s.tx.expire s.now } =
      .next { s with tx := s.tx.expire s.now } := by
    refine execAll_pktin_drops (hcfg.symm ▸ hc) fun pkt hmem => ?_
    obtain ⟨hlen, hseq⟩ := hpkts pkt hmem
    exact ⟨hlen.trans (congrArg Cfg.P hcfg.symm), fun heq => hseq (BitVec.eq_of_toNat_eq heq)⟩
  refine ⟨_, exec_expire_next.mpr ⟨hc, hen, rfl⟩, hdrops, rfl, ?_⟩
  rw [expire_eq hwin]
  exact ⟨rfl, rfl, rfl, rfl, if_neg hwin⟩

/-! ## The newest packet of the window -/

section Newest

variable {t : Sender} {newest : Packet}

/-- The newest packet of the window has a `gap` of `windowQueue.len` (R65). -/
theorem gap_newest (hs : SenderSound t) (hnum : Numbered t) (hlast : t.windowQueue.getLast? = some newest) :
    0 < t.windowQueue.length ∧ subM t.cfg.M (seqOf newest) t.lastAck.toNat = t.windowQueue.length := by
  have hb := legal_bounds hs.legal
  have hwin := hs.window
  rw [List.getLast?_eq_getElem?] at hlast
  have hlt := (List.getElem?_eq_some_iff.mp hlast).1
  refine ⟨by omega, ?_⟩
  rw [seqOf_window hnum hlast, Nat.add_sub_cancel' (by omega)]
  exact subM_addM hs.range.2 (by omega)

/-- The newest packet of the window is one FRAGMENT could have made (INV-P). -/
theorem genuine_newest (hs : SenderSound t) (hlast : t.windowQueue.getLast? = some newest) : Genuine t.cfg newest :=
  hs.genuine newest (List.mem_append_left _ (List.mem_of_getLast? hlast))

/-- The acknowledgment of the newest packet empties the window: while `2W < M` the guard does not stop it (R65, R98). -/
theorem onAck_newest (hs : SenderSound t) (hnum : Numbered t) (hnarrow : 2 * t.cfg.W < t.cfg.M)
    (hlast : t.windowQueue.getLast? = some newest) (now : Time) :
    t.onAck now newest = Sender.admitFromBuffer now { t with windowQueue := [], lastAck := byteAt newest 1 } := by
  obtain ⟨hpos, hgap⟩ := gap_newest hs hnum hlast
  obtain ⟨-, hverify, -, -, hseq, -⟩ := genuine_newest hs hlast
  have hwin : t.windowQueue.length ≤ t.cfg.W := hs.window
  have hguard : ackGuard t.cfg.M t.cfg.W (seqOf newest) t.lastAck.toNat = false := by
    refine Bool.eq_false_iff.mpr fun hguard => ?_
    have hstale := gap_gt_of_ackGuard hseq hs.range.2 hnarrow hguard
    omega
  rw [onAck_cumulative hverify hseq hguard (by omega) (by omega),
    acknowledge_eq_drop hs.legal hs.window hs.range.2 hnum, hgap, List.drop_length]

end Newest

/-! ## A round of recovery (log 21) -/

/-- A state from which rounds of recovery deliver everything: the hypotheses of O60, the receiver having accepted the first
`accepted` of the outstanding packets. -/
structure Recoverable (s : State) (accepted : Nat) : Prop where
  sound : Sound s
  settled : Settled s.tx
  numbered : Numbered s.tx
  timer : TimerCovers s.tx
  oneCfg : s.rx.cfg = s.tx.cfg
  narrow : 2 * s.tx.cfg.W < s.tx.cfg.M
  hasAccepted : HasAccepted s accepted
  newest : NewestNotYetAccepted s accepted

section Round

variable {s : State} {a : Nat} {newest : Packet}

theorem Recoverable.sender (h : Recoverable s a) : SenderSound s.tx := (sound_iff.mp h.sound).1

theorem Recoverable.receiver (h : Recoverable s a) : ReceiverSound s.rx := (sound_iff.mp h.sound).2

/-- Of the outstanding packets the receiver has accepted none beyond the window. -/
theorem Recoverable.accepted_le (h : Recoverable s a) : a ≤ s.tx.windowQueue.length := by
  obtain hlt | hzero := h.newest <;> omega

/-- The invariant does not speak of the time. -/
theorem recoverable_atExpiry (h : Recoverable s a) : Recoverable (atExpiry s) a :=
  ⟨h.sound, h.settled, h.numbered, h.timer, h.oneCfg, h.narrow, h.hasAccepted, h.newest⟩

/-- With an empty window nothing is outstanding: there is room, so the buffer is empty too (INV-A). -/
theorem Recoverable.outstanding_eq_nil (h : Recoverable s a) (hwin : s.tx.windowQueue = []) :
    outstanding s.tx = [] := by
  have hb := legal_bounds h.sender.legal
  have hsettled := h.settled
  rw [Settled, hwin, List.length_nil] at hsettled
  rw [outstanding, hwin, List.nil_append]
  exact List.length_eq_zero_iff.mp (by omega)

/-- A retransmission writes the trace and the timer, of which soundness does not speak. -/
theorem Recoverable.sender_retransmitted (h : Recoverable s a) :
    SenderSound (retransmitted s.now s.tx.windowQueue s.tx) :=
  ⟨h.sender.legal, h.sender.window, h.sender.range, h.sender.genuine⟩

/-- Every packet of the window is one FRAGMENT could have made under the receiver's configuration. -/
theorem Recoverable.window_genuine (h : Recoverable s a) : ∀ pkt ∈ s.tx.windowQueue, Genuine s.rx.cfg pkt := by
  rw [h.oneCfg]
  exact fun pkt hmem => h.sender.genuine pkt (List.mem_append_left _ hmem)

/-- Different distances below `M` lead to different sequence numbers. -/
theorem addM_left_inj {M b i j : Nat} (hb : b < M) (hi : i < M) (hj : j < M) : addM M b i = addM M b j ↔ i = j :=
  ⟨fun h => by rw [← subM_addM hb hi, h, subM_addM hb hj], congrArg (addM M b)⟩

/-- A packet of the window that the receiver has accepted is not the one it expects: the window is too short for the
numbers to come round again. -/
theorem Recoverable.seqOf_ne_expected (h : Recoverable s a) {pkt : Packet} (hmem : pkt ∈ s.tx.windowQueue.take a) :
    seqOf pkt ≠ s.rx.expectedSeq.toNat := by
  have hb := legal_bounds h.sender.legal
  have hwin : s.tx.windowQueue.length ≤ s.tx.cfg.W := h.sender.window
  have hnarrow := h.narrow
  have hle := h.accepted_le
  obtain ⟨j, hj⟩ := List.mem_iff_getElem?.mp hmem
  have hja : j < a := (List.getElem?_eq_some_iff.mp hj).1.trans_le (List.length_take_le _ _)
  rw [List.getElem?_take_of_lt hja] at hj
  rw [seqOf_window h.numbered hj, h.hasAccepted]
  exact (addM_left_inj h.sender.range.2 (by omega) (by omega)).not.mpr (by omega)

/-- Of the retransmitted window the receiver drops what it has accepted already, and accepts the rest. -/
theorem Recoverable.execAll_pktin_window (h : Recoverable s a) (t : Sender) :
    execAll (s.tx.windowQueue.map .pktin) { s with tx := t } =
      .next { s with tx := t, rx := accepted (s.tx.windowQueue.drop a) s.rx } := by
  have hdrops : execAll ((s.tx.windowQueue.take a).map .pktin) { s with tx := t } = .next { s with tx := t } :=
    execAll_pktin_drops h.receiver.legal fun pkt hmem =>
      ⟨(h.window_genuine pkt (List.mem_of_mem_take hmem)).1, h.seqOf_ne_expected hmem⟩
  have haccepts : execAll ((s.tx.windowQueue.drop a).map .pktin) { s with tx := t } =
      .next { s with tx := t, rx := accepted (s.tx.windowQueue.drop a) s.rx } := by
    refine execAll_pktin_accepts (s := { s with tx := t }) h.receiver
      (fun pkt hmem => h.window_genuine pkt (List.mem_of_mem_drop hmem)) fun j pkt hj => ?_
    rw [List.getElem?_drop] at hj
    change seqOf pkt = addM s.rx.cfg.M s.rx.expectedSeq.toNat j
    rw [seqOf_window h.numbered hj, h.oneCfg, h.hasAccepted, addM_assoc, Nat.add_assoc]
  have hsplit := execAll_append_of_next (second := (s.tx.windowQueue.drop a).map .pktin) hdrops
  rw [← List.map_append, List.take_append_drop] at hsplit
  exact hsplit.trans haccepts

/-- The state after a round of recovery: the sender has transmitted its window and has got the acknowledgment of its newest
packet, and the receiver has accepted what it had not accepted yet. -/
def recovered (newest : Packet) (a : Nat) (s : State) : State :=
  { s with
    tx := (retransmitted s.now s.tx.windowQueue s.tx).onAck s.now newest
    rx := accepted (s.tx.windowQueue.drop a) s.rx }

/-- A round of recovery completes: EXPIRE, the packets of the window at the receiver, the acknowledgment. -/
theorem Recoverable.execAll_recoveryRound (h : Recoverable s a) (hen : expireEnabled s = true)
    (hlast : s.tx.windowQueue.getLast? = some newest) :
    execAll (recoveryRound s) s = .next (recovered newest a s) := by
  have hc := h.sender.legal
  have hexpire := exec_expire_next.mpr ⟨hc, hen, rfl⟩
  rw [expire_eq (List.ne_nil_of_mem (List.mem_of_getLast? hlast))] at hexpire
  obtain ⟨hlen, -⟩ := genuine_newest h.sender hlast
  simp only [recoveryRound, hlast]
  rw [execAll_cons_of_next hexpire, execAll_append_of_next (h.execAll_pktin_window _)]
  exact execAll_cons_of_next (exec_ackin_next.mpr ⟨hc, hlen, rfl⟩)

/-- Accepting packets moves `expectedSeq` on by their number. -/
theorem accepted_expectedSeq_toNat {r : Receiver} (hc : r.cfg.Legal) (pkts : List Packet) :
    (accepted pkts r).expectedSeq.toNat = addM r.cfg.M r.expectedSeq.toNat pkts.length := by
  have hb := legal_bounds hc
  have hlt := addM_lt (M := r.cfg.M) (by omega) r.expectedSeq.toNat pkts.length
  exact toNat_byte_of_lt (by omega)

theorem receiverSound_accepted {r : Receiver} (h : ReceiverSound r) (pkts : List Packet) :
    ReceiverSound (accepted pkts r) := by
  have hb := legal_bounds h.legal
  refine ⟨h.legal, ?_⟩
  rw [ExpectedInRange, accepted_expectedSeq_toNat h.legal]
  exact addM_lt (by omega) _ _

/-- The sender after a round: the window has been emptied, and ADMIT has filled it again. -/
theorem Recoverable.recovered_tx (h : Recoverable s a) (hlast : s.tx.windowQueue.getLast? = some newest) :
    (recovered newest a s).tx = Sender.admitFromBuffer s.now
      { retransmitted s.now s.tx.windowQueue s.tx with windowQueue := [], lastAck := byteAt newest 1 } :=
  onAck_newest h.sender_retransmitted h.numbered h.narrow hlast s.now

/-- After a round what was in the buffer is outstanding, and nothing of the window. -/
theorem Recoverable.outstanding_recovered (h : Recoverable s a) (hlast : s.tx.windowQueue.getLast? = some newest) :
    outstanding (recovered newest a s).tx = s.tx.bufferQueue := by
  rw [h.recovered_tx hlast, outstanding_admitFromBuffer]
  rfl

/-- After a round the receiver expects the first packet that was behind the window, and the sender has acknowledged all
before it: both ends have moved to the window's end. -/
theorem Recoverable.hasAccepted_recovered (h : Recoverable s a) (hlast : s.tx.windowQueue.getLast? = some newest) :
    HasAccepted (recovered newest a s) 0 := by
  obtain ⟨-, hgap⟩ := gap_newest h.sender h.numbered hlast
  obtain ⟨-, -, -, -, hseq, -⟩ := genuine_newest h.sender hlast
  have hexp := accepted_expectedSeq_toNat h.receiver.legal (s.tx.windowQueue.drop a)
  rw [HasAccepted, h.recovered_tx hlast, admitFromBuffer_cfg, admitFromBuffer_lastAck]
  calc
    (accepted (s.tx.windowQueue.drop a) s.rx).expectedSeq.toNat
      = addM s.tx.cfg.M (addM s.tx.cfg.M s.tx.lastAck.toNat (1 + a)) (s.tx.windowQueue.length - a) := by
        rw [hexp, h.hasAccepted, h.oneCfg, List.length_drop]
    _ = addM s.tx.cfg.M (addM s.tx.cfg.M s.tx.lastAck.toNat s.tx.windowQueue.length) 1 := by
        rw [addM_assoc, addM_assoc, Nat.add_assoc, Nat.add_sub_cancel' h.accepted_le, Nat.add_comm]
    _ = addM s.tx.cfg.M (seqOf newest) 1 := by rw [← hgap, addM_subM hseq h.sender.range.2]

/-- A round leads to a state with the invariant again, of whose outstanding packets the receiver has accepted none. -/
theorem recoverable_recovered (h : Recoverable s a) (hlast : s.tx.windowQueue.getLast? = some newest) :
    Recoverable (recovered newest a s) 0 := by
  obtain ⟨hpos, hgap⟩ := gap_newest h.sender h.numbered hlast
  have hcfg : (recovered newest a s).tx.cfg = s.tx.cfg := onAck_cfg _ _ _
  refine
    { sound := sound_iff.mpr ⟨h.sender_retransmitted.onAck _ _, receiverSound_accepted h.receiver _⟩
      settled := ?_
      numbered := numbered_onAck (t := retransmitted s.now s.tx.windowQueue s.tx) h.numbered h.sender_retransmitted
        (fun _ _ _ => hgap.le) s.now
      timer := fun _ => ?_
      oneCfg := h.oneCfg.trans hcfg.symm
      narrow := hcfg.symm ▸ h.narrow
      hasAccepted := h.hasAccepted_recovered hlast
      newest := .inr rfl }
  · rw [h.recovered_tx hlast]
    exact settled_admitFromBuffer (Nat.zero_le _) _
  · rw [h.recovered_tx hlast]
    exact admitFromBuffer_tmrArmed (if_neg (List.length_pos_iff.mp hpos)) _

end Round

/-! ## Eventual delivery (R93, log 21) -/

/-- From `s`, of whose outstanding packets the receiver had accepted the first `accepted`, to `s'` all the others have been
delivered in order, and none is outstanding any more. -/
structure AllDelivered (s : State) (accepted : Nat) (s' : State) : Prop where
  recoverable : Recoverable s' 0
  outstanding_eq : outstanding s'.tx = []
  delivered_eq : delivered s'.rx.out = delivered s.rx.out ++ ((outstanding s.tx).drop accepted).flatMap payOf
  nextSeq_eq : s'.tx.nextSeq = s.tx.nextSeq
  cfg_eq : s'.tx.cfg = s.tx.cfg

section Rounds

variable {s s' : State} {a : Nat} {newest : Packet}

theorem allDelivered_of_nil (h : Recoverable s a) (hnil : outstanding s.tx = []) : AllDelivered s a s := by
  have hzero : a = 0 := by
    have hle := h.accepted_le
    rw [(List.append_eq_nil_iff.mp hnil).1] at hle
    exact Nat.le_zero.mp hle
  exact ⟨hzero ▸ h, hnil, by simp [hnil], rfl, rfl⟩

/-- Nothing that is delivered depends on the time. -/
theorem AllDelivered.of_atExpiry (h : AllDelivered (atExpiry s) a s') : AllDelivered s a s' :=
  ⟨h.recoverable, h.outstanding_eq, h.delivered_eq, h.nextSeq_eq, h.cfg_eq⟩

/-- A round delivers what the receiver had not accepted of the window; the buffer is what is left to be delivered. -/
theorem AllDelivered.of_recovered (h : Recoverable s a) (hlast : s.tx.windowQueue.getLast? = some newest)
    (hrest : AllDelivered (recovered newest a s) 0 s') : AllDelivered s a s' := by
  refine ⟨hrest.recoverable, hrest.outstanding_eq, ?_, hrest.nextSeq_eq.trans (onAck_nextSeq _ _ _),
    hrest.cfg_eq.trans (onAck_cfg _ _ _)⟩
  have hround : delivered (recovered newest a s).rx.out =
      delivered s.rx.out ++ (s.tx.windowQueue.drop a).flatMap payOf := delivered_accepted _ _
  rw [hrest.delivered_eq, hround, h.outstanding_recovered hlast, List.drop_zero, outstanding,
    List.drop_append_of_le_length h.accepted_le, List.flatMap_append, List.append_assoc]

/-- As many rounds as there are outstanding packets, or more, deliver them all: a round with something outstanding takes at
least one packet, and one with nothing outstanding does nothing. -/
theorem Recoverable.recoveryRounds_complete {n : Nat} (h : Recoverable s a) (hn : (outstanding s.tx).length ≤ n) :
    ∃ s', recoveryRounds n s = .next s' ∧ AllDelivered s a s' := by
  induction n generalizing s a with
  | zero => exact ⟨s, rfl, allDelivered_of_nil h (List.length_eq_zero_iff.mp (Nat.le_zero.mp hn))⟩
  | succ n ih =>
    have hexp := recoverable_atExpiry h
    cases hlast : s.tx.windowQueue.getLast? with
    | none =>
      have hwin : s.tx.windowQueue = [] := List.getLast?_eq_none_iff.mp hlast
      have hround : execAll (recoveryRound s) (atExpiry s) = .next (atExpiry s) := by
        rw [recoveryRound_of_empty hwin, execAll_nil]
      obtain ⟨s', hrun, hdone⟩ := ih hexp (by rw [hexp.outstanding_eq_nil hwin]; exact Nat.zero_le n)
      exact ⟨s', (recoveryRounds_succ_of_next hround).trans hrun, hdone.of_atExpiry⟩
    | some newest =>
      have hwin := List.ne_nil_of_mem (List.mem_of_getLast? hlast)
      have hround := hexp.execAll_recoveryRound ((expireEnabled_atExpiry s).trans (h.timer hwin)) hlast
      have hshorter : s.tx.bufferQueue.length ≤ n := by
        have hpos := List.length_pos_iff.mpr hwin
        rw [outstanding, List.length_append] at hn
        omega
      obtain ⟨s', hrun, hdone⟩ := ih (recoverable_recovered hexp hlast)
        (by rw [hexp.outstanding_recovered hlast]; exact hshorter)
      exact ⟨s', (recoveryRounds_succ_of_next hround).trans hrun, (hdone.of_recovered hexp hlast).of_atExpiry⟩

end Rounds

/-- Settles O60: the rounds deliver everything, and with nothing outstanding the numbering says that `nextSeq` follows
`lastAck`, which is what the receiver expects. -/
theorem recoveryDeliversEverything : Obligations.RecoveryDeliversEverything := by
  intro s a hsound hsettled hnum htimer hcfg hnarrow haccepted hnewest
  have h : Recoverable s a := ⟨hsound, hsettled, hnum, htimer, hcfg, hnarrow, haccepted, hnewest⟩
  obtain ⟨s', hrun, hdone⟩ := h.recoveryRounds_complete le_rfl
  have hend := hdone.recoverable
  have hb := legal_bounds hend.sender.legal
  have hnext : s'.tx.nextSeq.toNat = addM s'.tx.cfg.M s'.tx.lastAck.toNat 1 := by
    rw [(numbered_iff.mp hend.numbered).2, hdone.outstanding_eq, List.length_nil]
  refine ⟨s', hrun, hdone.outstanding_eq, hdone.delivered_eq, hdone.nextSeq_eq, ?_, ?_⟩
  · rw [← hdone.nextSeq_eq]
    exact BitVec.eq_of_toNat_eq (hend.hasAccepted.trans hnext.symm)
  · rw [← hdone.nextSeq_eq, ← hdone.cfg_eq, hnext, subM_addM_one (by omega) hend.sender.range.2]

end Sys2Proof.Proofs
end

section
/-! PROOFS of the family 43_receiver.md: what PKTIN accepts and does (O23), and that another copy of an accepted packet is
dropped (O24). The cases of PKTIN are joined to one equation, `onPacket_eq_ite`, which is R70 read off; and a packet that has
been accepted no longer has the expected sequence number (`seqOf_ne_expectedSeq_after_emits`), because advancing a sequence
register changes it. -/

namespace Sys2Proof.Proofs

open Sys2Proof.Machine Sys2Proof.Safety Sys2Proof.Laws

/-! ## What PKTIN does with any packet (R70) -/

/-- The sequence test of R70 compares integers, which compares the bytes. -/
theorem seqOf_eq_toNat_iff {pkt : Packet} {x : Byte} : seqOf pkt = x.toNat ↔ byteAt pkt 1 = x :=
  BitVec.toNat_inj

/-- The tests of R70, on the bytes of the packet, decide PKTIN: a packet that passes them all is delivered and echoed, any
other changes nothing. -/
theorem onPacket_eq_ite (pkt : Packet) (r : Receiver) :
    r.onPacket pkt =
      if (cksum pkt).toNat = wordAt pkt 2 ∧ byteAt pkt 1 = r.expectedSeq ∧ (byteAt pkt 0).toNat ≤ r.cfg.P - 4 then
        { r with
          expectedSeq := nextInSpace r.cfg r.expectedSeq
          out := r.out ++ [.deliver (payOf pkt), .xmit pkt] }
      else r := by
  split
  next haccept =>
    obtain ⟨hcksum, hseq, hlen⟩ := haccept
    exact onPacket_accept (verify_eq_true_iff.mpr hcksum) (seqOf_eq_toNat_iff.mpr hseq) hlen
  next hreject =>
    obtain heq | ⟨hverify, hseq, hlen, -⟩ := onPacket_cases pkt r
    · exact heq
    · exact absurd ⟨verify_eq_true_iff.mp hverify, seqOf_eq_toNat_iff.mp hseq, hlen⟩ hreject

/-- A packet of `P` bytes whose length byte is in range carries that many payload bytes (R42). -/
theorem payOf_length {c : Cfg} {pkt : Packet} (hsize : pkt.length = c.P) (hlen : lenOf pkt ≤ c.maxPay) :
    (payOf pkt).length = lenOf pkt :=
  List.length_take_of_le (by rwa [List.length_drop, hsize])

/-- Settles O23: PKTIN runs and does what `onPacket_eq_ite` says; a packet whose length is in range has its payload whole. -/
theorem pktinAcceptsOnlyTheExpectedPacket : Obligations.PktinAcceptsOnlyTheExpectedPacket := by
  intro s pkt hc hsize payload
  refine ⟨exec_pktin_next.mpr ⟨hc, hsize, ?_⟩, payOf_length hsize⟩
  rw [onPacket_eq_ite]
  split <;> rfl

/-! ## Another copy of an accepted packet (R70 corner case (a), R71) -/

/-- Advancing changes any sequence register, one out of range too: the next number is in range. -/
theorem nextInSpace_ne_self {c : Cfg} (hc : c.Legal) (x : Byte) : nextInSpace c x ≠ x := by
  have hb := legal_bounds hc
  by_cases hx : x.toNat < c.M
  · exact nextInSpace_ne hc hx
  · intro heq
    have hrange : (nextInSpace c x).toNat < c.M := by
      rw [nextInSpace_toNat hc]
      exact addM_lt (by omega) _ _
    exact hx (heq ▸ hrange)

/-- A PKTIN that emits was given the packet that was expected (R70). -/
theorem seqOf_eq_expectedSeq_of_emits {pkt : Packet} {r : Receiver} (hout : (r.onPacket pkt).out ≠ r.out) :
    seqOf pkt = r.expectedSeq.toNat :=
  Decidable.byContradiction fun hseq => hout (congrArg Receiver.out (onPacket_of_seq_ne hseq))

/-- Once PKTIN has accepted a packet, the receiver no longer expects its sequence number (R71). -/
theorem seqOf_ne_expectedSeq_after_emits {pkt : Packet} {r : Receiver} (hc : r.cfg.Legal)
    (hout : (r.onPacket pkt).out ≠ r.out) : seqOf pkt ≠ (r.onPacket pkt).expectedSeq.toNat := by
  rw [seqOf_eq_expectedSeq_of_emits hout, onPacket_emits hout]
  exact fun heq => nextInSpace_ne_self hc _ (BitVec.eq_of_toNat_eq heq.symm)

/-- Settles O24: PKTIN of the packet once more drops it for its sequence number. -/
theorem acceptedPacketIsNotAcknowledgedAgain : Obligations.AcceptedPacketIsNotAcknowledgedAgain := by
  intro s t pkt h hout
  obtain ⟨hc, hsize, rfl⟩ := exec_pktin_next.mp h
  have hseq := seqOf_ne_expectedSeq_after_emits hc hout
  refine exec_pktin_next.mpr ⟨?_, ?_, ?_⟩
  · rwa [onPacket_cfg]
  · rwa [onPacket_cfg]
  · rw [onPacket_of_seq_ne hseq]

end Sys2Proof.Proofs
end

section
/-! PROOFS of the family 44_timer.md: ARM, CANCEL and QUERY (O27, O28, O29), when EXPIRE is enabled and what it does (O30,
O31), the quiescent sender (O53), the totality of the operations (O41), and that the timer covers the window (INV-T, O32). The
last is a case split over the operations, `exec_keeps_timerCovers`: what fills the window arms the timer, and nothing but
CANCEL leaves the timer Idle while packets stay in the window. -/

namespace Sys2Proof.Proofs

open Sys2Proof.Machine Sys2Proof.Safety Sys2Proof.Laws

/-! ## ARM, CANCEL and QUERY -/

/-- Settles O27: ARM runs under any legal configuration, and `Sender.arm` writes the timer alone. -/
theorem armReplacesThePendingExpiry : Obligations.ArmReplacesThePendingExpiry :=
  fun _ _ hc => exec_arm_next.mpr ⟨hc, rfl⟩

/-- CANCEL of an Idle timer changes nothing (R75). -/
theorem cancel_of_idle {t : Sender} (hidle : t.tmrArmed = false) : t.cancel = t := by
  rw [Sender.cancel, ← hidle]

/-- CANCEL at an Idle timer is a step that leaves the machine as it is. -/
theorem exec_cancel_of_idle {s : State} (hc : s.tx.cfg.Legal) (hidle : s.tx.tmrArmed = false) :
    exec .cancel s = .next s :=
  exec_cancel_next.mpr ⟨hc, by rw [cancel_of_idle hidle]⟩

/-- Settles O28: CANCEL clears `tmrArmed`, which changes nothing where it is clear. -/
theorem cancelMakesTheTimerIdle : Obligations.CancelMakesTheTimerIdle :=
  fun _ hc => ⟨exec_cancel_next.mpr ⟨hc, rfl⟩, exec_cancel_of_idle hc⟩

/-- Settles O29: QUERY is an answer of the sender. -/
theorem queryAnswersWhetherArmed : Obligations.QueryAnswersWhetherArmed :=
  fun _ hc => exec_query_next.mpr ⟨hc, rfl⟩

/-! ## EXPIRE -/

/-- When EXPIRE is enabled, in either treatment of time (R77, R79). -/
theorem expireEnabled_eq_true_iff {s : State} :
    expireEnabled s = true ↔ s.tx.tmrArmed = true ∧ (s.timing = .timed → s.tx.tmrDeadline ≤ s.now) := by
  rw [expireEnabled, Bool.and_eq_true]
  cases s.timing with
  | untimed => simp
  | timed => simp

/-- While it is not enabled EXPIRE has no next state (R77; log 11). -/
theorem exec_expire_refused {s : State} (hc : s.tx.cfg.Legal) (hdisabled : ¬ expireEnabled s = true) :
    exec .expire s = .refused .expireNotEnabled := by
  rw [exec, execExpire, whenLegal_pos hc, if_neg hdisabled]

/-- An Idle timer does not expire (R73). -/
theorem not_expireEnabled_of_idle {s : State} (hidle : s.tx.tmrArmed = false) : ¬ expireEnabled s = true := by
  rw [expireEnabled_eq_true_iff, hidle]
  exact fun hen => absurd hen.1 Bool.false_ne_true

/-- Settles O31: an Idle timer does not expire, and in the timed treatment none does before its deadline. -/
theorem expireHasNoStepWhileNotEnabled : Obligations.ExpireHasNoStepWhileNotEnabled := by
  rintro s hc (hidle | ⟨htimed, hearly⟩)
  · exact exec_expire_refused hc (not_expireEnabled_of_idle hidle)
  · refine exec_expire_refused hc fun hen => ?_
    obtain ⟨-, hdue⟩ := expireEnabled_eq_true_iff.mp hen
    exact absurd (hdue htimed) (Nat.not_le.mpr hearly)

/-- EXPIRE in closed form, whatever the window: the expiry is consumed, then the window is transmitted (R77, D5). -/
theorem expire_eq_retransmitted (now : Time) (t : Sender) :
    t.expire now = retransmitted now t.windowQueue { t with tmrArmed := false } := by
  rw [Sender.expire, onTimeout_eq]

/-- Settles O30: EXPIRE in closed form, at a state where it is enabled. -/
theorem expireConsumesAndRetransmits : Obligations.ExpireConsumesAndRetransmits := by
  intro s hc harmed hdue
  refine exec_expire_next.mpr ⟨hc, expireEnabled_eq_true_iff.mpr ⟨harmed, hdue⟩, ?_⟩
  rw [expire_eq_retransmitted]
  rfl

/-! ## The quiescent sender (R100) -/

/-- TIMEOUT of an empty window transmits nothing (R66). -/
theorem onTimeout_of_empty {t : Sender} (hwin : t.windowQueue = []) (now : Time) : t.onTimeout now = t := by
  rw [onTimeout_eq, hwin, retransmitted_nil]

/-- Settles O53: the Idle timer neither expires nor has anything to cancel, the empty window nothing to retransmit, and the
empty buffer nothing to move. -/
theorem quiescentSenderStaysQuiet : Obligations.QuiescentSenderStaysQuiet := by
  rintro s hc ⟨hbuf, hwin, hidle⟩
  have hsettled : Settled s.tx := .inr (List.length_eq_zero_iff.mpr hbuf)
  refine ⟨exec_expire_refused hc (not_expireEnabled_of_idle hidle), exec_timeout_next.mpr ⟨hc, ?_⟩,
    exec_admit_next.mpr ⟨hc, ?_⟩, exec_cancel_of_idle hc hidle⟩
  · rw [onTimeout_of_empty hwin]
  · rw [admitFromBuffer_of_settled hsettled]

/-! ## Every operation is total (R80) -/

/-- The bytes of a DELIVER are at most a payload's (R31, R72). -/
theorem wfDeliver_eq_true_iff {c : Cfg} {bytes : List Byte} : wfDeliver c bytes = true ↔ bytes.length ≤ c.maxPay :=
  decide_eq_true_iff

theorem configured_cfgOf {s : State} (h : Configured s) : ∀ sd, (s.cfgOf sd).Legal
  | .tx => h.1
  | .rx => h.2

/-- While `BUF_DEPTH` is unbounded there is room for every message (D9). -/
theorem roomFor_of_unbounded {t : Sender} (hdepth : t.cfg.bufDepth = none) (n : Nat) : roomFor t n = true := by
  rw [roomFor, hdepth]

/-- Settles O41: operation by operation, what its inversion lemma asks for is a legal configuration, a well-formed operand,
room in the buffer, or an enabled expiry. -/
theorem everyOperationIsTotal : Obligations.EveryOperationIsTotal := by
  intro s i hconf hdepth hwf hexpire
  have hc := configured_cfgOf hconf
  have hroom := roomFor_of_unbounded hdepth
  cases i with
  | cksum sd pkt => exact ⟨_, exec_cksum_next.mpr ⟨hc sd, wfPacket_eq_true_iff.mp hwf, rfl⟩⟩
  | encode sd len seq pay => exact ⟨_, exec_encode_next.mpr ⟨hc sd, hwf, rfl⟩⟩
  | verify sd pkt => exact ⟨_, exec_verify_next.mpr ⟨hc sd, wfPacket_eq_true_iff.mp hwf, rfl⟩⟩
  | fragment msg => exact ⟨_, exec_fragment_next.mpr ⟨hc .tx, hroom _, rfl⟩⟩
  | submit msg => exact ⟨_, exec_submit_next.mpr ⟨hc .tx, hroom _, rfl⟩⟩
  | admitFromBuffer => exact ⟨_, exec_admit_next.mpr ⟨hc .tx, rfl⟩⟩
  | ackin pkt => exact ⟨_, exec_ackin_next.mpr ⟨hc .tx, wfPacket_eq_true_iff.mp hwf, rfl⟩⟩
  | timeout => exact ⟨_, exec_timeout_next.mpr ⟨hc .tx, rfl⟩⟩
  | pktin pkt => exact ⟨_, exec_pktin_next.mpr ⟨hc .rx, wfPacket_eq_true_iff.mp hwf, rfl⟩⟩
  | arm d => exact ⟨_, exec_arm_next.mpr ⟨hc .tx, rfl⟩⟩
  | cancel => exact ⟨_, exec_cancel_next.mpr ⟨hc .tx, rfl⟩⟩
  | query => exact ⟨_, exec_query_next.mpr ⟨hc .tx, rfl⟩⟩
  | expire =>
    obtain ⟨harmed, huntimed⟩ := hexpire rfl
    have hen : expireEnabled s = true :=
      expireEnabled_eq_true_iff.mpr ⟨harmed, fun htimed => absurd (huntimed.symm.trans htimed) nofun⟩
    exact ⟨_, exec_expire_next.mpr ⟨hc .tx, hen, rfl⟩⟩
  | xmit sd pkt => exact ⟨_, exec_xmit_next.mpr ⟨hc sd, wfPacket_eq_true_iff.mp hwf, rfl⟩⟩
  | deliver bytes => exact ⟨_, exec_deliver_next.mpr ⟨hc .rx, wfDeliver_eq_true_iff.mp hwf, rfl⟩⟩
  | packet sd pkt => exact ⟨_, exec_packet_next.mpr ⟨hc sd, wfPacket_eq_true_iff.mp hwf, rfl⟩⟩

/-! ## The timer covers the window (INV-T, R78) -/

/-- FRAGMENT touches neither the window nor the timer. -/
theorem timerCovers_fragment {t : Sender} (h : TimerCovers t) (msg : List Byte) : TimerCovers (t.fragment msg) := by
  obtain ⟨q, n, hfrag⟩ := fragment_frame msg t
  rw [hfrag]
  exact h

/-- ADMIT moves no packet and changes nothing, or it arms the timer (R61). -/
theorem timerCovers_admitFromBuffer {t : Sender} (h : TimerCovers t) (now : Time) :
    TimerCovers (t.admitFromBuffer now) := by
  rw [admit_eq]
  by_cases hnone : admissible t = []
  · rw [admitted_of_empty now t hnone]
    exact h
  · exact fun _ => if_neg hnone

/-- The removal of R65 leaves the timer as it was, and packets only where there were some. -/
theorem timerCovers_acknowledge {t : Sender} (h : TimerCovers t) (ack : Byte) (gap : Nat) :
    TimerCovers (t.acknowledge ack gap) := by
  refine fun hwin => h fun hnil => hwin ?_
  rw [Sender.acknowledge_windowQueue, hnil, List.filter_nil]

/-- ACKIN does nothing, admits, or removes and then admits (R62). -/
theorem timerCovers_onAck {t : Sender} (h : TimerCovers t) (now : Time) (pkt : Packet) :
    TimerCovers (t.onAck now pkt) := by
  obtain heq | heq | ⟨-, -, -, -, heq⟩ := onAck_cases now pkt t <;> rw [heq]
  · exact h
  · exact timerCovers_admitFromBuffer h now
  · exact timerCovers_admitFromBuffer (timerCovers_acknowledge h _ _) now

/-- TIMEOUT arms the timer for a window that is not empty, whether or not it was armed before (R66). -/
theorem timerCovers_onTimeout (now : Time) (t : Sender) : TimerCovers (t.onTimeout now) := by
  rw [onTimeout_eq]
  exact fun hwin => if_neg hwin

theorem timerCovers_answer {s : State} (h : TimerCovers s.tx) (v : Result) : ∀ sd, TimerCovers (s.answer v sd).tx
  | .tx => h
  | .rx => h

theorem timerCovers_emitAt {s : State} (h : TimerCovers s.tx) (o : Output) : ∀ sd, TimerCovers (s.emitAt o sd).tx
  | .tx => h
  | .rx => h

theorem timerCovers_receive {s : State} (h : TimerCovers s.tx) (pkt : Packet) : ∀ sd, TimerCovers (s.receive pkt sd).tx
  | .tx => timerCovers_onAck h s.now pkt
  | .rx => h

theorem timerCovers_resetAt {s : State} (h : TimerCovers s.tx) : ∀ sd, TimerCovers (s.resetAt sd).tx
  | .tx => nofun
  | .rx => h

/-- Every operation but CANCEL keeps INV-T. -/
theorem exec_keeps_timerCovers {i : Instr} {s s' : State} (h : TimerCovers s.tx) (hi : i ≠ .cancel)
    (hexec : exec i s = .next s') : TimerCovers s'.tx := by
  cases i with
  | cksum sd pkt => obtain ⟨-, -, rfl⟩ := exec_cksum_next.mp hexec; exact timerCovers_answer h _ sd
  | encode sd len seq pay => obtain ⟨-, -, rfl⟩ := exec_encode_next.mp hexec; exact timerCovers_answer h _ sd
  | verify sd pkt => obtain ⟨-, -, rfl⟩ := exec_verify_next.mp hexec; exact timerCovers_answer h _ sd
  | fragment msg => obtain ⟨-, -, rfl⟩ := exec_fragment_next.mp hexec; exact timerCovers_fragment h msg
  | submit msg =>
    obtain ⟨-, -, rfl⟩ := exec_submit_next.mp hexec
    exact timerCovers_admitFromBuffer (timerCovers_fragment h msg) s.now
  | admitFromBuffer => obtain ⟨-, rfl⟩ := exec_admit_next.mp hexec; exact timerCovers_admitFromBuffer h s.now
  | ackin pkt => obtain ⟨-, -, rfl⟩ := exec_ackin_next.mp hexec; exact timerCovers_onAck h s.now pkt
  | timeout => obtain ⟨-, rfl⟩ := exec_timeout_next.mp hexec; exact timerCovers_onTimeout s.now s.tx
  | pktin pkt => obtain ⟨-, -, rfl⟩ := exec_pktin_next.mp hexec; exact h
  | arm d => obtain ⟨-, rfl⟩ := exec_arm_next.mp hexec; exact fun _ => rfl
  | cancel => exact absurd rfl hi
  | query => obtain ⟨-, rfl⟩ := exec_query_next.mp hexec; exact timerCovers_answer h _ .tx
  | expire => obtain ⟨-, -, rfl⟩ := exec_expire_next.mp hexec; exact timerCovers_onTimeout s.now _
  | xmit sd pkt => obtain ⟨-, -, rfl⟩ := exec_xmit_next.mp hexec; exact timerCovers_emitAt h _ sd
  | deliver bytes => obtain ⟨-, -, rfl⟩ := exec_deliver_next.mp hexec; exact timerCovers_emitAt h _ .rx
  | packet sd pkt => obtain ⟨-, -, rfl⟩ := exec_packet_next.mp hexec; exact timerCovers_receive h pkt sd

/-- Settles O32: RESET empties the window, taking an event touches neither side, and the operation it selects, not being
CANCEL, keeps INV-T. -/
theorem stepKeepsTimerArmedForWindow : Obligations.StepKeepsTimerArmedForWindow := by
  intro s s' hcovers hsel hstep
  obtain ⟨-, rfl⟩ | ⟨e, rest, sd, -, -, -, rfl⟩ | ⟨e, rest, sd, port, bytes, i, hev, hin, hdec, hexec⟩ := step_cases hstep
  · exact hcovers
  · exact timerCovers_resetAt (s := s.take e rest) hcovers sd
  · have hselected : selected s = some i := by simp only [selected, hev, hin, hdec]
    refine exec_keeps_timerCovers (s := s.take e rest) hcovers (fun hcancel => hsel ?_) hexec
    rw [hselected, hcancel]

end Sys2Proof.Proofs
end

section
/-! PROOFS of the family 60_exceptions.md: without an event the core does nothing, and no step faults (O39). -/

namespace Sys2Proof.Proofs

open Sys2Proof.Machine Sys2Proof.Safety Sys2Proof.Laws

/-- Where no event waits, the step leaves the machine as it is (R82). -/
theorem step_of_no_event {s : State} (hev : s.events = []) : step s = .next s := by
  rw [step, hev]

/-- Settles O39: the idle step is the first branch of `step`, and R80 leaves no fault that a step could end in. -/
theorem coreDoesNothingOnItsOwn : Obligations.CoreDoesNothingOnItsOwn := by
  refine ⟨fun _ hev => step_of_no_event hev, fun _ f => ?_⟩
  cases f

end Sys2Proof.Proofs
end

section
/-! PROOFS of the family 70_reset_and_hazards.md: RESET puts one instance at its reset values and touches nothing else
(O37). -/

namespace Sys2Proof.Proofs

open Sys2Proof.Machine Sys2Proof.Safety Sys2Proof.Laws

/-- A RESET event of a legally configured instance resets that instance, once the event has been taken (R90). -/
theorem step_of_reset {s : State} {e : Event} {rest : List Event} {sd : Side} (hev : s.events = e :: rest)
    (hin : e.input = .reset sd) (hlegal : (s.cfgOf sd).Legal) : step s = .next ((s.take e rest).resetAt sd) := by
  rw [step, hev]
  change dispatch e.input (s.take e rest) = _
  rw [hin, dispatch, State.take_cfgOf]
  exact whenLegal_next.mpr ⟨hlegal, rfl⟩

/-- What RESET leaves of the sender: R91's values, the configuration, the trace and the answer, and the model's deadline
(log 10). -/
theorem Sender.reset_eq (t : Sender) :
    t.reset = { t with
      nextSeq := 0#8, lastAck := BitVec.ofNat 8 (t.cfg.M - 1), bufferQueue := [], windowQueue := [],
      tmrArmed := false, tmrDeadline := 0 } := rfl

/-- What RESET leaves of the receiver: R91's value, the configuration, the trace and the answer. -/
theorem Receiver.reset_eq (r : Receiver) : r.reset = { r with expectedSeq := 0#8 } := rfl

/-- Settles O37: the step resets the instance the event names; the deadline U4 leaves open is the model's 0. -/
theorem resetTouchesOneInstance : Obligations.ResetTouchesOneInstance := by
  intro s e rest hev
  constructor
  · intro hin hlegal
    refine ⟨0, ?_⟩
    rw [step_of_reset hev hin hlegal, State.resetAt, Sender.reset_eq]
    rfl
  · intro hin hlegal
    rw [step_of_reset hev hin hlegal, State.resetAt, Receiver.reset_eq]
    rfl

end Sys2Proof.Proofs
end
